-- ==== Sys2Proof/Word.lean ====
section
/-! DEFINITION. The 32-bit word of the bus and of the command register, and its plainest parts (00_scope.md R7,
20_memory.md R61, R65). -/

namespace Sys2Proof

/-- A 32-bit bus word; bit 0 is the least significant bit (R7). -/
abbrev Word := BitVec 32

/-- Byte lane `b` of a word: bits `8b+7 : 8b` (R65). -/
def Word.lane (v : Word) (b : Nat) : BitVec 8 := v.extractLsb' (8 * b) 8

end Sys2Proof
end

