-- ==== Sys2Proof/Syntax.lean ====
section
/-! DEFINITION. The commands of the block, one constructor for each row of spec/opcode_table.json (30_encoding.md
R82). A command has no operand field: its operands are fixed registers (R80, R83). -/

namespace Sys2Proof

/-- The eight commands (R82). -/
inductive Instr where
  | nop
  | isPrime
  | genPrime
  | genKeys
  | modexp
  | gcd
  | modinv
  | zeroize
  deriving DecidableEq, Repr

end Sys2Proof
end

