-- ==== Sys2Proof/Decode.lean ====
section
/-! DEFINITION. The decoder of the command word, total on every word, and the encoder (30_encoding.md R80 to R85). -/

namespace Sys2Proof

/-- Why a command word is illegal (R84). Both reasons end the command with ILLEGAL_CMD. -/
inductive DecodeError where
  /-- RSVD is not 0. -/
  | reservedBits
  /-- OPCODE is in `0x08..0xFF`. -/
  | reservedOpcode
  deriving DecidableEq, Repr

/-- The OPCODE field, bits 7:0 (R80). -/
def cmdOpcode (w : Word) : BitVec 8 := w.extractLsb' 0 8

/-- The RSVD field, bits 31:8 (R80). -/
def cmdRsvd (w : Word) : BitVec 24 := w.extractLsb' 8 24

/-- The opcode map (R82). -/
def decodeOpcode (op : BitVec 8) : Except DecodeError Instr :=
  match op.toNat with
  | 0x00 => .ok .nop
  | 0x01 => .ok .isPrime
  | 0x02 => .ok .genPrime
  | 0x03 => .ok .genKeys
  | 0x04 => .ok .modexp
  | 0x05 => .ok .gcd
  | 0x06 => .ok .modinv
  | 0x07 => .ok .zeroize
  | _ => .error .reservedOpcode

/-- The engine's decode of a command word (R81): the reserved bits first, then the opcode. -/
def decode (w : Word) : Except DecodeError Instr :=
  if cmdRsvd w = 0 then decodeOpcode (cmdOpcode w) else .error .reservedBits

/-- The command a word selects, if it selects one. -/
def decode? (w : Word) : Option Instr :=
  match decode w with
  | .ok i => some i
  | .error _ => none

/-- The OPCODE of a command (R82). -/
def opcodeOf : Instr → BitVec 8
  | .nop => 0x00
  | .isPrime => 0x01
  | .genPrime => 0x02
  | .genKeys => 0x03
  | .modexp => 0x04
  | .gcd => 0x05
  | .modinv => 0x06
  | .zeroize => 0x07

/-- The exact word of a command: RSVD = 0 above its OPCODE (R80, R82). -/
def encode (i : Instr) : Word := (opcodeOf i).setWidth 32

/-- The host's reading of a row of spec/opcode_table.json: the command is one 32-bit word, and the bits above
`nbits` are 0. A number that is no 32-bit word selects nothing. -/
def decodeTableWord (nbits w : Nat) : Option Instr :=
  let v := w % 2 ^ nbits
  if v < 2 ^ 32 then decode? (BitVec.ofNat 32 v) else none

end Sys2Proof
end

