-- ==== Sys2Proof/Machine/Txn.lean ====
section
/-! DEFINITION. What the outside world can do to the block: the names of the registers a host reaches, bus
transactions and their responses, and the events of a run (10_state.md R20, R30; 20_memory.md R61). -/

namespace Sys2Proof.Machine

/-- The ten big-number registers (R30). -/
inductive BigReg where
  | a | b | m | r | p | q | n | phi | e | d
  deriving DecidableEq, Repr

/-- The eight control registers (10_state.md section 3). -/
inductive CReg where
  | id | param | ctrl | status | cmd | bits | rounds | errcode
  deriving DecidableEq, Repr

/-- What a transaction does. A write carries its data word. -/
inductive Access where
  | read
  | write (v : Word)
  deriving DecidableEq, Repr

/-- One bus transaction: a byte offset below `0x10000` from BASE (R60, R61), its size in bytes, its byte
strobes (R62; a read on a bus that strobes writes only has all four, log 12), and what it does. -/
structure Txn where
  off     : BitVec 16
  size    : Nat
  strobes : BitVec 4
  access  : Access
  deriving DecidableEq, Repr

/-- `MemRead(off, 4)` (R8, R61). -/
def Txn.rd (off : BitVec 16) : Txn := ⟨off, 4, 0xF, .read⟩

/-- `MemWrite(off, 4, v)` (R8, R61). -/
def Txn.wr (off : BitVec 16) (v : Word) : Txn := ⟨off, 4, 0xF, .write v⟩

/-- The one response a transaction receives (R61). The data of `readError` is unspecified. -/
inductive Response where
  | readOkay (v : Word)
  | writeOkay
  | readError (v : Word)
  | writeError
  deriving DecidableEq, Repr

/-- One event of a run (R20). A run is any sequence of events. -/
inductive Event where
  /-- A host step: one bus transaction. -/
  | host (t : Txn)
  /-- An engine step. `draws` are the answers the entropy source delivers in it, in order, each an unconstrained
  natural that the draw primitives bring into range (R9); an answer beyond those is not delivered yet. `quantum` is
  how many micro-operations the engine may do after its first (no rule bounds how far one step gets, U3). -/
  | engine (draws : List Nat) (quantum : Nat)
  /-- Reset (70_reset_and_hazards.md R200). -/
  | reset
  /-- A bus access while the platform holds reset asserted, which R200 does not model (U9). -/
  | hostInReset (t : Txn)
  deriving DecidableEq, Repr, Inhabited

end Sys2Proof.Machine
end

