-- ==== Sys2Proof/Config.lean ====
section
/-! DEFINITION. What an implementation fixes and the values the spec leaves open: the parameters of 00_scope.md R5,
the hardwired constants, and the free values, which have no body. -/

namespace Sys2Proof

/-- The implementation parameter of the block (R5): `w` is W, the width in bits of every big-number register. It is
carried in the state so that a statement about every state holds for every W; no step changes it. -/
structure Params where
  w : Nat
  deriving DecidableEq, Repr

/-- `NW = W / 32`, the words of a big-number register (R5). -/
def Params.nw (p : Params) : Nat := p.w / 32

namespace Config

/-- The reference value of W (R5). DESIGN CHOICE: the value `State.reset` carries (log 3). -/
def refParams : Params := ⟨2048⟩

/-- `E0`, the first public exponent GEN_KEYS tries, hardwired (R5). -/
def e0 : Nat := 65537

/-- `ROUNDS_RESET` (R5). -/
def roundsReset : BitVec 8 := 5

/-- The hardwired value of ID (10_state.md R22). -/
def idWord : Word := 0x52534B47

/-- `BASE`, the bus address of the block's offset 0: a platform parameter, open (R5, R60). -/
opaque base : Nat

/-- The bus address of a byte offset of the register window (R60). -/
def busAddress (off : BitVec 16) : Nat := base + off.toNat

/-- FREE VALUE. The `k`-th unspecified 32-bit value a host read returns: a destination register of the running
command (10_state.md R37, U1), or the data of an ERROR response (20_memory.md R61, U7). Logs 5 and 6. -/
opaque unspecifiedRead (k : Nat) : Word

/-- FREE VALUE. The `k`-th event of the run past those that `State.inputs` lists: any interleaving of host steps,
engine steps and resets (10_state.md R20). Log 2. -/
opaque environment (k : Nat) : Machine.Event

end Config
end Sys2Proof
end

