-- ==== Sys2Proof/Machine/State.lean ====
section
/-! DEFINITION. The state of the block as plain data (10_state.md), the reasons a step can stop, and the state right
after reset (R39). -/

namespace Sys2Proof.Machine

/-- A modular exponentiation in progress (42_modular_arithmetic.md R141): `i` exponent bits are still to come, `r` is
the product so far. -/
structure PowWork where
  i : Nat
  r : Nat
  deriving DecidableEq, Repr

/-- An extended Euclid run in progress (R145). -/
structure InvWork where
  r0 : Nat
  r1 : Nat
  s0 : Int
  s1 : Int
  deriving DecidableEq, Repr

/-- A candidate under test with `n - 1 = d * 2^r`, `d` odd, and the round counter `i` (40_prime_testing.md R101). -/
structure MrCand where
  n : Nat
  d : Nat
  r : Nat
  i : Nat
  deriving DecidableEq, Repr

/-- Where a Miller-Rabin test stands (R101). -/
inductive MrWork where
  /-- Before the three checks on `n`. -/
  | check (n : Nat)
  /-- In the loop that splits `n - 1` into `d * 2^r`. -/
  | split (n d r : Nat)
  /-- At the head of round `c.i`, before its witness is drawn. -/
  | witness (c : MrCand)
  /-- Witness `a` drawn; `a^d mod n` in progress. -/
  | power (c : MrCand) (a : Nat) (p : PowWork)
  /-- `x` is being squared; `j` squarings are left. -/
  | square (c : MrCand) (x j : Nat)
  deriving DecidableEq, Repr

/-- Where the search for a prime stands (R105, 41_key_generation.md R121). -/
inductive GenWork where
  /-- Before a candidate is drawn. -/
  | draw
  /-- A candidate is under test. -/
  | test (m : MrWork)
  deriving DecidableEq, Repr

/-- Where GEN_KEYS stands (R120 to R124). -/
inductive KeysWork where
  /-- Searching `p`. -/
  | primeP (g : GenWork)
  /-- `p` found; searching `q`. -/
  | primeQ (p : Nat) (g : GenWork)
  /-- `Gcd(e, phi)` in progress on the pair `(x, y)`. -/
  | coprime (p q e x y : Nat)
  /-- `e` had a common factor with `phi`; before another is drawn. -/
  | redrawE (p q : Nat)
  /-- `ModInv(e, phi)` in progress. -/
  | inverse (p q e : Nat) (v : InvWork)
  deriving DecidableEq, Repr

/-- The working values of the running command, hidden from the host (10_state.md R33). -/
inductive Work where
  /-- Accepted; the checks of the first step are still to come (60_exceptions.md R175). -/
  | start
  /-- IS_PRIME. -/
  | test (m : MrWork)
  /-- GEN_PRIME. -/
  | gen (g : GenWork)
  /-- GEN_KEYS. -/
  | keys (k : KeysWork)
  /-- MODEXP. -/
  | power (p : PowWork)
  /-- GCD, on the pair `(x, y)`. -/
  | euclid (x y : Nat)
  /-- MODINV. -/
  | inverse (v : InvWork)
  deriving DecidableEq, Repr

/-- The engine state ENG (R21). Working values exist only while BUSY (R33), so they stand here. -/
inductive Engine where
  | idle
  | busy (w : Word) (work : Work)
  deriving DecidableEq, Repr

/-- The stored bits of STATUS (R25). BUSY is not stored: it is 1 exactly when ENG is BUSY. -/
structure Status where
  done    : Bool
  error   : Bool
  prime   : Bool
  overrun : Bool
  deriving DecidableEq, Repr

/-- The ten big-number registers, each a natural below `2^W` (R30; the bound is part of `State.Inv`). -/
structure BigRegs where
  a   : Nat
  b   : Nat
  m   : Nat
  r   : Nat
  p   : Nat
  q   : Nat
  n   : Nat
  phi : Nat
  e   : Nat
  d   : Nat
  deriving DecidableEq, Repr

/-- Everything the spec gives the block, and the inputs and outputs at its edge. -/
structure State where
  /-- W (R5, R23); constant. -/
  params       : Params
  /-- ENG and the working values (R21, R33). -/
  eng          : Engine
  /-- CTRL.IRQ_EN (R24). -/
  irqEn        : Bool
  /-- STATUS (R25). -/
  status       : Status
  /-- CMD (R28). -/
  cmd          : Word
  /-- BITS[15:0] (R26). -/
  bits         : BitVec 16
  /-- ROUNDS[7:0] (R27). -/
  rounds       : BitVec 8
  /-- ERRCODE[7:0] (R29). -/
  errcode      : BitVec 8
  /-- The big-number registers (R30). -/
  big          : BigRegs
  /-- ABORT_PENDING (R33). -/
  abortPending : Bool
  /-- The number of entropy draws consumed so far (R33). -/
  draws        : Nat
  /-- Input port: the entropy answers offered to the engine step in progress and not yet used (R20). -/
  entropy      : List Nat
  /-- Input port: the micro-operations the engine step in progress may do after its first (log 1). -/
  quantum      : Nat
  /-- Output port: the response to the latest host transaction (20_memory.md R61). -/
  response     : Option Response
  /-- The coming events, in their one total order (R20, R69). -/
  inputs       : List Event
  /-- How many events `Config.environment` has supplied (log 2). -/
  freeEvents   : Nat
  /-- How many values `Config.unspecifiedRead` has supplied (log 5). -/
  freeReads    : Nat
  deriving DecidableEq, Repr

/-- Why the machine stops with a fault. The spec gives this block none: every input has a defined outcome, a hang is
a run that goes on, and a bus error is a response (60_exceptions.md R184). The type is empty, so no step faults. -/
inductive Fault
  deriving DecidableEq, Repr

/-- Why a step has no meaning. -/
inductive Refusal where
  /-- Raised by the arm of an instruction that has no meaning yet; no arm of this model raises it. Safe. -/
  | notModelled (mnemonic : String)
  /-- Raised by `runEvent` for a bus access while reset is asserted, which the spec does not model (R200, U9).
  Safe. -/
  | accessDuringReset
  deriving DecidableEq, Repr

/-- All ten registers 0 (R39). -/
def BigRegs.zero : BigRegs := ⟨0, 0, 0, 0, 0, 0, 0, 0, 0, 0⟩

/-- The state right after reset (R39, 70_reset_and_hazards.md R200). W is the reference value (log 3); the model's own
fields and the draw count are as log 10 says. -/
def State.reset : State where
  params       := Config.refParams
  eng          := .idle
  irqEn        := false
  status       := ⟨false, false, false, false⟩
  cmd          := 0
  bits         := 0
  rounds       := Config.roundsReset
  errcode      := 0
  big          := BigRegs.zero
  abortPending := false
  draws        := 0
  entropy      := []
  quantum      := 0
  response     := none
  inputs       := []
  freeEvents   := 0
  freeReads    := 0

end Sys2Proof.Machine
end

