-- ==== Sys2Proof/Machine/Flags.lean ====
section
/-! DEFINITION. The flags: the STATUS word, write-1-to-clear, and the interrupt line (10_state.md R25, R35;
60_exceptions.md R177). -/

namespace Sys2Proof.Machine

/-- Whether ENG is BUSY (10_state.md R21). -/
def Engine.isBusy : Engine → Bool
  | .idle => false
  | .busy _ _ => true

/-- STATUS.BUSY: 1 exactly when ENG is BUSY (R25). -/
def State.busy (s : State) : Bool := s.eng.isBusy

/-- STATUS as software reads it: BUSY, DONE, ERROR, PRIME, OVERRUN in bits 0 to 4, the rest 0 (R25). -/
def statusWord (busy : Bool) (f : Status) : Word :=
  BitVec.ofNat 32
    (busy.toNat + 2 * f.done.toNat + 4 * f.error.toNat + 8 * f.prime.toNat + 16 * f.overrun.toNat)

/-- A write of `v` to STATUS: bits 1, 2 and 4 written as 1 clear DONE, ERROR and OVERRUN; PRIME is read-only (R25). -/
def Status.clear (f : Status) (v : Word) : Status :=
  { f with
    done    := f.done && !v.getLsbD 1
    error   := f.error && !v.getLsbD 2
    overrun := f.overrun && !v.getLsbD 4 }

/-- The interrupt line: `IRQ_EN AND DONE`, level-sensitive (R177). -/
def State.irq (s : State) : Bool := s.irqEn && s.status.done

/-- CTRL as software reads it: IRQ_EN in bit 1; ABORT and the reserved bits read 0 (10_state.md R24). -/
def ctrlWord (irqEn : Bool) : Word := BitVec.ofNat 32 (2 * irqEn.toNat)

end Sys2Proof.Machine
end

