-- ==== Sys2Proof/Machine/Operands.lean ====
section
/-! DEFINITION. The operands of a command: fixed registers, read unsigned and never scaled (30_encoding.md R83), with
the named access to the big-number registers (00_scope.md R8, `x[NAME]`). -/

namespace Sys2Proof.Machine

/-- `x[NAME]` (R8). -/
def BigRegs.get (x : BigRegs) : BigReg → Nat
  | .a => x.a
  | .b => x.b
  | .m => x.m
  | .r => x.r
  | .p => x.p
  | .q => x.q
  | .n => x.n
  | .phi => x.phi
  | .e => x.e
  | .d => x.d

/-- `x[NAME] <- v` (R8). -/
def BigRegs.set (x : BigRegs) (name : BigReg) (v : Nat) : BigRegs :=
  match name with
  | .a => { x with a := v }
  | .b => { x with b := v }
  | .m => { x with m := v }
  | .r => { x with r := v }
  | .p => { x with p := v }
  | .q => { x with q := v }
  | .n => { x with n := v }
  | .phi => { x with phi := v }
  | .e => { x with e := v }
  | .d => { x with d := v }

/-- What a command can read: BITS, ROUNDS, A, B, M and the parameter W (R83, 10_state.md R31). -/
structure Operands where
  w    : Nat
  bits : Nat
  t    : Nat
  a    : Nat
  b    : Nat
  m    : Nat
  deriving DecidableEq, Repr

/-- The operands as the registers hold them; they cannot change while BUSY (20_memory.md R71). -/
def State.operands (s : State) : Operands where
  w    := s.params.w
  bits := s.bits.toNat
  t    := s.rounds.toNat
  a    := s.big.get .a
  b    := s.big.get .b
  m    := s.big.get .m

end Sys2Proof.Machine
end

