-- ==== Sys2Proof/Machine/Ops.lean ====
section
/-! DEFINITION. The named operations over the registers and the two ways a command ends: success completion and error
completion, the block's one kind of exception (60_exceptions.md R171 to R174), with the abort ending
(43_control_commands.md R162), command acceptance (30_encoding.md R81) and reset (70_reset_and_hazards.md R200). -/

namespace Sys2Proof.Machine

/-- `x[NAME] <- v` on the state. -/
def State.setBig (s : State) (name : BigReg) (v : Nat) : State := { s with big := s.big.set name v }

/-- `x[NAME] <- 0` for each name of a list. -/
def State.zeroBigs (s : State) (names : List BigReg) : State :=
  { s with big := names.foldl (fun x name => x.set name 0) s.big }

/-- All ten names, in the order of 10_state.md R30. -/
def BigReg.all : List BigReg := [.a, .b, .m, .r, .p, .q, .n, .phi, .e, .d]

/-- The big-number registers of the destination set of a command (10_state.md R36). -/
def dstOf : Instr → List BigReg
  | .nop => []
  | .isPrime => []
  | .genPrime => [.r]
  | .genKeys => [.p, .q, .n, .phi, .e, .d]
  | .modexp => [.r]
  | .gcd => [.r]
  | .modinv => [.r]
  | .zeroize => BigReg.all

/-- Whether STATUS.PRIME is in the destination set of a command (R36). -/
def dstHasPrime : Instr → Bool
  | .nop => false
  | .isPrime => true
  | .genPrime => false
  | .genKeys => false
  | .modexp => false
  | .gcd => false
  | .modinv => false
  | .zeroize => true

/-- The running command, if ENG is BUSY with a word that selects one. -/
def State.running (s : State) : Option Instr :=
  match s.eng with
  | .idle => none
  | .busy w _ => decode? w

/-- The big-number registers of `DST(op)` of the running command; none for an illegal word or when IDLE (R36). -/
def State.dst (s : State) : List BigReg :=
  match s.running with
  | none => []
  | some i => dstOf i

/-- Whether `DST(op)` of the running command has STATUS.PRIME (R36). -/
def State.dstPrime (s : State) : Bool :=
  match s.running with
  | none => false
  | some i => dstHasPrime i

/-- The error codes a completion can write (60_exceptions.md R173). -/
inductive ErrorCode where
  | illegalCmd
  | badBits
  | badRounds
  | modulusZero
  | noInverse
  | keygenFailure
  | aborted
  deriving DecidableEq, Repr

/-- The ERRCODE value of an error (R173). -/
def errorByte : ErrorCode → BitVec 8
  | .illegalCmd => 0x01
  | .badBits => 0x02
  | .badRounds => 0x03
  | .modulusZero => 0x04
  | .noInverse => 0x05
  | .keygenFailure => 0x06
  | .aborted => 0x07

/-- Whether an error is of the late class, which zeroes the destination set (R173, R174). -/
def errorIsLate : ErrorCode → Bool
  | .illegalCmd => false
  | .badBits => false
  | .badRounds => false
  | .modulusZero => false
  | .noInverse => true
  | .keygenFailure => true
  | .aborted => true

/-- What a command writes when it succeeds, besides the completion flags. -/
inductive Effect where
  /-- NOP: nothing. -/
  | nothing
  /-- IS_PRIME: the verdict. -/
  | verdict (v : Bool)
  /-- GEN_PRIME, MODEXP, GCD, MODINV: the value of R. -/
  | result (v : Nat)
  /-- GEN_KEYS: the six registers of the key pair. -/
  | keyPair (p q n phi e d : Nat)
  /-- ZEROIZE: all ten registers and PRIME to 0. -/
  | zeroAll
  deriving DecidableEq, Repr

/-- The result writes of a success completion. -/
def State.write (s : State) : Effect → State
  | .nothing => s
  | .verdict v => { s with status := { s.status with prime := v } }
  | .result v => s.setBig .r v
  | .keyPair p q n phi e d =>
    (((((s.setBig .p p).setBig .q q).setBig .n n).setBig .phi phi).setBig .e e).setBig .d d
  | .zeroAll => { s.zeroBigs BigReg.all with status := { s.status with prime := false } }

/-- Success completion, `complete()`, with the command's result writes, in one step (R171). -/
def State.complete (s : State) (f : Effect) : State :=
  let s := s.write f
  { s with
    eng     := .idle
    status  := { s.status with done := true, error := false }
    errcode := 0x00 }

/-- The register effects of an error (R174): a late error zeroes the destination set of the running command. -/
def State.errorEffects (s : State) (c : ErrorCode) : State :=
  if errorIsLate c then
    { s.zeroBigs s.dst with status := { s.status with prime := s.status.prime && !s.dstPrime } }
  else s

/-- Error completion, `raise Error(code)`, in one step (R172): the block's one way of taking an exception. It saves the
code in ERRCODE; the command word stays in CMD (R178). -/
def State.raiseError (s : State) (c : ErrorCode) : State :=
  let s := s.errorEffects c
  { s with
    abortPending := false
    eng          := .idle
    status       := { s.status with done := true, error := true }
    errcode      := errorByte c }

/-- The abort ending (43_control_commands.md R162): the ABORTED error, of the late class. -/
def State.abortEnding (s : State) : State := s.raiseError .aborted

/-- Acceptance of a command word while IDLE (30_encoding.md R81). -/
def State.accept (s : State) (w : Word) : State :=
  { s with
    cmd    := w
    status := { s.status with
      done  := false
      error := false
      prime := s.status.prime && !(decode? w == some .isPrime) }
    eng    := .busy w .start }

/-- A host write that is dropped because ENG is BUSY (70_reset_and_hazards.md R205). -/
def State.drop (s : State) : State := { s with status := { s.status with overrun := true } }

/-- The input ports as an engine step samples them: the draws delivered and the micro-operations it may do. -/
def State.offer (s : State) (draws : List Nat) (quantum : Nat) : State :=
  { s with entropy := draws, quantum := quantum }

/-- Reset (70_reset_and_hazards.md R200, 10_state.md R39). The parameter stays, and so do the events to come and the
counters of free values, which belong to the run and not to the block (log 11). -/
def State.doReset (s : State) : State :=
  { State.reset with
    params     := s.params
    inputs     := s.inputs
    freeEvents := s.freeEvents
    freeReads  := s.freeReads }

end Sys2Proof.Machine
end

