-- ==== Sys2Proof/Machine/Burst.lean ====
section
/-! DEFINITION. How an engine step advances a command. A command is a machine of micro-operations, one turn of a loop
of the spec's pseudocode each, on its working values; an engine step does some of them, using the entropy answers
offered to it, and either ends the command or leaves the working values for the next step (10_state.md R20, R33;
log 1). -/

namespace Sys2Proof.Machine

/-- What one micro-operation does to working values of type `σ`; `ρ` is what the machine ends with. -/
inductive Micro (σ ρ : Type) where
  /-- New working values. -/
  | advance (w : σ)
  /-- New working values, made with the draw that was offered. -/
  | consume (w : σ)
  /-- A draw is needed and none is offered: no progress (70_reset_and_hazards.md R213). -/
  | wait
  /-- The end. -/
  | finish (r : ρ)
  deriving Repr

/-- A machine used inside another: its working values are embedded by `inj`, and its end goes on as `k` says. -/
def Micro.lift {σ ρ τ υ : Type} (m : Micro σ ρ) (inj : σ → τ) (k : ρ → Micro τ υ) : Micro τ υ :=
  match m with
  | .advance w => .advance (inj w)
  | .consume w => .consume (inj w)
  | .wait => .wait
  | .finish r => k r

/-- What remains when an engine step stops: the end, or the working values to go on with; and the answers not used. -/
inductive Burst (σ ρ : Type) where
  | paused (w : σ) (rest : List Nat)
  | finished (r : ρ) (rest : List Nat)
  deriving Repr

/-- At most `k` micro-operations of the machine `f`, with the entropy answers `ds` on offer. -/
def burst {σ ρ : Type} (f : Option Nat → σ → Micro σ ρ) : Nat → List Nat → σ → Burst σ ρ
  | 0, ds, w => .paused w ds
  | k + 1, ds, w =>
    match f ds.head? w with
    | .advance w' => burst f k ds w'
    | .consume w' => burst f k ds.tail w'
    | .wait => .paused w ds
    | .finish r => .finished r ds

/-- How a command ends by itself. -/
inductive Ending where
  | success (f : Effect)
  | failure (c : ErrorCode)
  deriving DecidableEq, Repr

/-- The draws used so far, when `rest` is left of the answers offered. -/
def State.useDraws (s : State) (rest : List Nat) : State :=
  { s with
    draws   := s.draws + (s.entropy.length - rest.length)
    entropy := rest }

/-- The state after an engine step's burst: the command goes on with its working values, or completes. -/
def State.afterBurst (s : State) (w : Word) : Burst Work Ending → State
  | .paused work rest => { s.useDraws rest with eng := .busy w work }
  | .finished (.success f) rest => (s.useDraws rest).complete f
  | .finished (.failure c) rest => (s.useDraws rest).raiseError c

/-- What every engine step does first: nothing when IDLE (60_exceptions.md R183), the abort ending when an abort is
pending, before anything else the engine would do (43_control_commands.md R162, 60_exceptions.md R176). -/
def State.engineTurn (s : State) (run : Word → Work → State) : State :=
  match s.eng with
  | .idle => s
  | .busy w work => if s.abortPending then s.abortEnding else run w work

/-- One engine step of a command whose machine is `f`: at least one micro-operation, at most `quantum + 1`. -/
def State.runCommand (s : State) (f : Operands → Option Nat → Work → Micro Work Ending) : State :=
  s.engineTurn fun w work => s.afterBurst w (burst (f s.operands) (s.quantum + 1) s.entropy work)

end Sys2Proof.Machine
end

