-- ==== Sys2Proof/Machine/Control.lean ====
section
/-! DEFINITION. The control commands NOP and ZEROIZE (43_control_commands.md R160, R161). -/

namespace Sys2Proof.Machine

/-- NOP: complete with no effect (R160). -/
def nopMicro (_ : Operands) (_ : Option Nat) (_ : Work) : Micro Work Ending :=
  .finish (.success .nothing)

/-- ZEROIZE: all ten registers and PRIME to 0, in the completion step (R161). -/
def zeroizeMicro (_ : Operands) (_ : Option Nat) (_ : Work) : Micro Work Ending :=
  .finish (.success .zeroAll)

/-- One engine step of NOP. -/
def execNop (s : State) : Host.Outcome State Fault Refusal := .next (s.runCommand nopMicro)

/-- One engine step of ZEROIZE. -/
def execZeroize (s : State) : Host.Outcome State Fault Refusal := .next (s.runCommand zeroizeMicro)

end Sys2Proof.Machine
end

