-- ==== Sys2Proof/Machine/Arith.lean ====
section
/-! DEFINITION. The pure functions of the spec's pseudocode, exact on naturals (00_scope.md R7 to R9): bit length,
draws, ModExp, Gcd, ModInv, the parts of Miller-Rabin, and the words of a big number. -/

namespace Sys2Proof.Machine

/-- The least `L` with `v < 2^L` (R7). -/
def bitlen (v : Nat) : Nat := if v = 0 then 0 else v.log2 + 1

/-- `DrawBits(k)`: the entropy source's answer `raw`, any natural, brought into `[0, 2^k)` (R9). Every value of the
range is the image of some answer. -/
def drawBits (k raw : Nat) : Nat := raw % 2 ^ k

/-- `DrawRange(lo, hi)`: the answer `raw` brought into `[lo, hi]`, for `lo ≤ hi` (R9). -/
def drawRange (lo hi raw : Nat) : Nat := lo + raw % (hi - lo + 1)

/-- One turn of the loop of `ModExp(a, b, m)` at exponent bit `i` (42_modular_arithmetic.md R141). -/
def powStep (a b m i r : Nat) : Nat :=
  let sq := r * r % m
  if b.testBit i then sq * (a % m) % m else sq

/-- The turns of that loop for bits `i-1` down to 0. -/
def powLoop (a b m : Nat) : Nat → Nat → Nat
  | 0, r => r
  | i + 1, r => powLoop a b m i (powStep a b m i r)

/-- `ModExp(a, b, m)`, for `m ≥ 1` (R141). -/
def modExp (a b m : Nat) : Nat := powLoop a b m (bitlen b) (1 % m)

/-- `Gcd(a, b)`: the greatest natural that divides both, and `Gcd(0, 0) = 0` (R143). -/
def gcd (a b : Nat) : Nat := Nat.gcd a b

/-- The quotient step of extended Euclid on `(r0, r1, s0, s1)`, for `r1 ≠ 0` (R145). -/
def invStep (r0 r1 : Nat) (s0 s1 : Int) : Nat × Nat × Int × Int :=
  let qq := r0 / r1
  (r1, r0 - qq * r1, s1, s0 - (qq : Int) * s1)

/-- What `ModInv` returns once `r1 = 0`: `s0 mod m` when the gcd `r0` is 1, else no inverse (R145). -/
def invResult (m r0 : Nat) (s0 : Int) : Option Nat :=
  if r0 = 1 then some (s0 % (m : Int)).toNat else none

/-- The loop of `ModInv` with a bound on its turns: `r1` falls at every turn, so `r1 + 1` turns always reach 0. -/
def invLoop (m : Nat) : Nat → Nat → Nat → Int → Int → Option Nat
  | 0, r0, _, s0, _ => invResult m r0 s0
  | k + 1, r0, r1, s0, s1 =>
    if r1 = 0 then invResult m r0 s0
    else
      let (r0', r1', s0', s1') := invStep r0 r1 s0 s1
      invLoop m k r0' r1' s0' s1'

/-- `ModInv(a, m)`, for `m ≥ 1`: `some v` for `(1, v)` and `none` for `(0, 0)` (R145). -/
def modInv (a m : Nat) : Option Nat := invLoop m (a % m + 1) m (a % m) 0 1

/-- The candidate formed from one answer of the entropy source, for `bits ≥ 2` (40_prime_testing.md R104): the top bit
and the lowest bit are set. -/
def candidate (bits raw : Nat) : Nat := drawBits bits raw ||| 2 ^ (bits - 1) ||| 1

/-- The loop `while d mod 2 == 0` with a bound on its turns: `d` halves, so `d` turns always suffice (R101). -/
def splitLoop : Nat → Nat → Nat → Nat × Nat
  | 0, d, r => (d, r)
  | k + 1, d, r => if d % 2 = 0 then splitLoop k (d / 2) (r + 1) else (d, r)

/-- The squarings of one round: `j` are left, and the round accepts when one of them yields `n - 1` (R101). -/
def squareLoop (n : Nat) : Nat → Nat → Bool
  | 0, _ => false
  | j + 1, x =>
    let y := modExp x 2 n
    y == n - 1 || squareLoop n j y

/-- Whether one round of Miller-Rabin with witness `a` accepts `n`, where `n - 1 = d * 2^r` (R101). -/
def roundAccepts (n d r a : Nat) : Bool :=
  let x := modExp a d n
  x == 1 || x == n - 1 || squareLoop n (r - 1) x

/-- Word `j` of a big number: bits `32j+31 : 32j` (20_memory.md R64). -/
def bigWord (x j : Nat) : Word := BitVec.ofNat 32 (x / 2 ^ (32 * j))

/-- A big number with word `j` replaced by `v`, its other words unchanged (R64). -/
def setBigWord (x j : Nat) (v : Word) : Nat :=
  x / 2 ^ (32 * (j + 1)) * 2 ^ (32 * (j + 1)) + v.toNat * 2 ^ (32 * j) + x % 2 ^ (32 * j)

end Sys2Proof.Machine
end

