-- ==== Sys2Proof/Machine/Modular.lean ====
section
/-! DEFINITION. MODEXP, GCD and MODINV (42_modular_arithmetic.md R140 to R145), and the micro-operations of their loops,
which prime testing and key generation use too. -/

namespace Sys2Proof.Machine

/-- `ModExp(a, b, m)` before its first turn (R141). -/
def powStart (b m : Nat) : PowWork := ⟨bitlen b, 1 % m⟩

/-- One turn of `ModExp(a, b, m)`, or its result (R141). -/
def powMicro (a b m : Nat) (p : PowWork) : Micro PowWork Nat :=
  match p.i with
  | 0 => .finish p.r
  | i + 1 => .advance ⟨i, powStep a b m i p.r⟩

/-- One turn of `Gcd` on the pair `(x, y)`, or its result (R143). -/
def gcdMicro (xy : Nat × Nat) : Micro (Nat × Nat) Nat :=
  if xy.2 = 0 then .finish xy.1 else .advance (xy.2, xy.1 % xy.2)

/-- `ModInv(a, m)` before its first turn (R145). -/
def invStart (a m : Nat) : InvWork := ⟨m, a % m, 0, 1⟩

/-- One turn of `ModInv(a, m)`, or its result (R145). -/
def invMicro (m : Nat) (v : InvWork) : Micro InvWork (Option Nat) :=
  if v.r1 = 0 then .finish (invResult m v.r0 v.s0)
  else
    let (r0, r1, s0, s1) := invStep v.r0 v.r1 v.s0 v.s1
    .advance ⟨r0, r1, s0, s1⟩

/-- MODEXP (R140): the check of `x[M]`, then `ModExp(x[A], x[B], x[M])` into R. Working values of another command are
none of MODEXP's, so it begins anew on them (10_state.md R33, log 13). -/
def modexpMicro (o : Operands) (_ : Option Nat) (work : Work) : Micro Work Ending :=
  match work with
  | .power p => (powMicro o.a o.b o.m p).lift .power fun v => .finish (.success (.result v))
  | _ => if o.m = 0 then .finish (.failure .modulusZero) else .advance (.power (powStart o.b o.m))

/-- GCD (R142): `Gcd(x[A], x[B])` into R; no operand error. -/
def gcdCommandMicro (o : Operands) (_ : Option Nat) (work : Work) : Micro Work Ending :=
  match work with
  | .euclid x y =>
    (gcdMicro (x, y)).lift (fun xy => .euclid xy.1 xy.2) fun v => .finish (.success (.result v))
  | _ => .advance (.euclid o.a o.b)

/-- MODINV (R144): the check of `x[M]`, then `ModInv(x[A], x[M])` into R, or NO_INVERSE. -/
def modinvMicro (o : Operands) (_ : Option Nat) (work : Work) : Micro Work Ending :=
  match work with
  | .inverse v =>
    (invMicro o.m v).lift .inverse fun
      | some d => .finish (.success (.result d))
      | none => .finish (.failure .noInverse)
  | _ => if o.m = 0 then .finish (.failure .modulusZero) else .advance (.inverse (invStart o.a o.m))

/-- One engine step of MODEXP. -/
def execModexp (s : State) : Host.Outcome State Fault Refusal := .next (s.runCommand modexpMicro)

/-- One engine step of GCD. -/
def execGcd (s : State) : Host.Outcome State Fault Refusal := .next (s.runCommand gcdCommandMicro)

/-- One engine step of MODINV. -/
def execModinv (s : State) : Host.Outcome State Fault Refusal := .next (s.runCommand modinvMicro)

end Sys2Proof.Machine
end

