-- ==== Sys2Proof/Machine/Prime.lean ====
section
/-! DEFINITION. IS_PRIME and GEN_PRIME (40_prime_testing.md R101 to R105), and the micro-operations of the Miller-Rabin
test and of the prime search, which key generation uses too. A round that does not accept rejects `n` at once
(90_conflicts.md C1). -/

namespace Sys2Proof.Machine

/-- One micro-operation of `MillerRabin(n, t)`; it ends with the verdict (R101). -/
def mrMicro (t : Nat) (draw : Option Nat) : MrWork → Micro MrWork Bool
  | .check n =>
    if n ≤ 1 then .finish false
    else if n = 2 ∨ n = 3 then .finish true
    else if n % 2 = 0 then .finish false
    else .advance (.split n (n - 1) 0)
  | .split n d r =>
    if d % 2 = 0 then .advance (.split n (d / 2) (r + 1)) else .advance (.witness ⟨n, d, r, 0⟩)
  | .witness c =>
    if t ≤ c.i then .finish true
    else
      match draw with
      | none => .wait
      | some raw => .consume (.power c (drawRange 2 (c.n - 2) raw) (powStart c.d c.n))
  | .power c a p =>
    (powMicro a c.d c.n p).lift (.power c a) fun x =>
      if x = 1 ∨ x = c.n - 1 then .advance (.witness { c with i := c.i + 1 })
      else .advance (.square c x (c.r - 1))
  | .square c x j =>
    match j with
    | 0 => .finish false
    | j + 1 =>
      let y := modExp x 2 c.n
      if y = c.n - 1 then .advance (.witness { c with i := c.i + 1 }) else .advance (.square c y j)

/-- The number under test. -/
def MrWork.n : MrWork → Nat
  | .check n => n
  | .split n _ _ => n
  | .witness c => c.n
  | .power c _ _ => c.n
  | .square c _ _ => c.n

/-- One micro-operation of the prime search of `bits` bits; it ends with the first candidate that passes (R105,
41_key_generation.md R121). -/
def genMicro (bits t : Nat) (draw : Option Nat) : GenWork → Micro GenWork Nat
  | .draw =>
    match draw with
    | none => .wait
    | some raw => .consume (.test (.check (candidate bits raw)))
  | .test m => (mrMicro t draw m).lift .test fun v => if v then .finish m.n else .advance .draw

/-- IS_PRIME (R102): the check of ROUNDS, then `MillerRabin(x[A], t)` into PRIME. -/
def isPrimeMicro (o : Operands) (draw : Option Nat) (work : Work) : Micro Work Ending :=
  match work with
  | .test m => (mrMicro o.t draw m).lift .test fun v => .finish (.success (.verdict v))
  | _ => if o.t = 0 then .finish (.failure .badRounds) else .advance (.test (.check o.a))

/-- GEN_PRIME (R105): the checks of BITS and ROUNDS, then the search into R. -/
def genPrimeMicro (o : Operands) (draw : Option Nat) (work : Work) : Micro Work Ending :=
  match work with
  | .gen g => (genMicro o.bits o.t draw g).lift .gen fun c => .finish (.success (.result c))
  | _ =>
    if o.bits < 2 ∨ o.w < o.bits then .finish (.failure .badBits)
    else if o.t = 0 then .finish (.failure .badRounds)
    else .advance (.gen .draw)

/-- One engine step of IS_PRIME. -/
def execIsPrime (s : State) : Host.Outcome State Fault Refusal := .next (s.runCommand isPrimeMicro)

/-- One engine step of GEN_PRIME. -/
def execGenPrime (s : State) : Host.Outcome State Fault Refusal := .next (s.runCommand genPrimeMicro)

end Sys2Proof.Machine
end

