-- ==== Sys2Proof/Machine/Keys.lean ====
section
/-! DEFINITION. GEN_KEYS (41_key_generation.md R120 to R125, R128). -/

namespace Sys2Proof.Machine

/-- `phi = (p - 1) (q - 1)` (R120). -/
def phiOf (p q : Nat) : Nat := (p - 1) * (q - 1)

/-- One micro-operation of the construction, with primes of `h` bits. `ModInv` fails only if `gcd(e, phi) ≠ 1`, which
the coprimality loop rules out; that branch is the KEYGEN_FAILURE error completion (R128, log 7). -/
def keysMicro (h t : Nat) (draw : Option Nat) : KeysWork → Micro KeysWork Ending
  | .primeP g => (genMicro h t draw g).lift .primeP fun p => .advance (.primeQ p .draw)
  | .primeQ p g =>
    (genMicro h t draw g).lift (.primeQ p) fun q =>
      if q = p then .advance (.primeQ p .draw)
      else .advance (.coprime p q Config.e0 Config.e0 (phiOf p q))
  | .coprime p q e x y =>
    (gcdMicro (x, y)).lift (fun xy => .coprime p q e xy.1 xy.2) fun g =>
      if g = 1 then .advance (.inverse p q e (invStart e (phiOf p q))) else .advance (.redrawE p q)
  | .redrawE p q =>
    match draw with
    | none => .wait
    | some raw =>
      let e := drawRange 2 (phiOf p q - 1) raw
      .consume (.coprime p q e e (phiOf p q))
  | .inverse p q e v =>
    (invMicro (phiOf p q) v).lift (.inverse p q e) fun
      | some d => .finish (.success (.keyPair p q (p * q) (phiOf p q) e d))
      | none => .finish (.failure .keygenFailure)

/-- GEN_KEYS (R120): the checks of BITS and ROUNDS, then the construction into P, Q, N, PHI, E and D. -/
def genKeysMicro (o : Operands) (draw : Option Nat) (work : Work) : Micro Work Ending :=
  match work with
  | .keys k => (keysMicro (o.bits / 2) o.t draw k).lift .keys .finish
  | _ =>
    if o.bits < 6 ∨ o.w < o.bits ∨ o.bits % 2 = 1 then .finish (.failure .badBits)
    else if o.t = 0 then .finish (.failure .badRounds)
    else .advance (.keys (.primeP .draw))

/-- One engine step of GEN_KEYS. -/
def execGenKeys (s : State) : Host.Outcome State Fault Refusal := .next (s.runCommand genKeysMicro)

end Sys2Proof.Machine
end

