-- ==== Sys2Proof/Machine/Dispatch.lean ====
section
/-! DEFINITION. One arm per command: the engine step of the running command. -/

namespace Sys2Proof.Machine

/-- One engine step of command `i`. -/
def exec (i : Instr) (s : State) : Host.Outcome State Fault Refusal :=
  match i with
  | .nop => Sys2Proof.Machine.execNop s
  | .isPrime => Sys2Proof.Machine.execIsPrime s
  | .genPrime => Sys2Proof.Machine.execGenPrime s
  | .genKeys => Sys2Proof.Machine.execGenKeys s
  | .modexp => Sys2Proof.Machine.execModexp s
  | .gcd => Sys2Proof.Machine.execGcd s
  | .modinv => Sys2Proof.Machine.execModinv s
  | .zeroize => Sys2Proof.Machine.execZeroize s

end Sys2Proof.Machine
end

