-- ==== Sys2Proof/Machine/HostPort.lean ====
section
/-! DEFINITION. A host step: one bus transaction on the register window (20_memory.md R60 to R68; the access rules of
each register in 10_state.md section 3). -/

namespace Sys2Proof.Machine

/-- A transaction the block accepts, a read or a write: four bytes, full strobes, aligned (20_memory.md R62). -/
def Txn.accepted (t : Txn) : Bool :=
  t.size == 4 && t.strobes == 0xF && t.off.toNat % 4 == 0

/-- What an accepted transaction addresses (R63). -/
inductive Target where
  | creg (c : CReg)
  | word (x : BigReg) (j : Nat)
  | unmapped
  deriving DecidableEq, Repr

/-- The big-number register of a window index (10_state.md R30). -/
def bigOfIndex : Nat → Option BigReg
  | 0 => some .a
  | 1 => some .b
  | 2 => some .m
  | 3 => some .r
  | 4 => some .p
  | 5 => some .q
  | 6 => some .n
  | 7 => some .phi
  | 8 => some .e
  | 9 => some .d
  | _ => none

/-- The window index of a big-number register (10_state.md R30). -/
def bigIndex : BigReg → Nat
  | .a => 0
  | .b => 1
  | .m => 2
  | .r => 3
  | .p => 4
  | .q => 5
  | .n => 6
  | .phi => 7
  | .e => 8
  | .d => 9

/-- The offset of a control register (R63). -/
def cregOffset : CReg → Nat
  | .id => 0x000
  | .param => 0x004
  | .ctrl => 0x008
  | .status => 0x00C
  | .cmd => 0x010
  | .bits => 0x014
  | .rounds => 0x018
  | .errcode => 0x01C

/-- The control register at an aligned offset of at most `0x01C` (R63). -/
def cregOfOffset : Nat → Option CReg
  | 0x000 => some .id
  | 0x004 => some .param
  | 0x008 => some .ctrl
  | 0x00C => some .status
  | 0x010 => some .cmd
  | 0x014 => some .bits
  | 0x018 => some .rounds
  | 0x01C => some .errcode
  | _ => none

/-- Address decode of an aligned offset (R63). -/
def decodeOffset (off : Nat) : Target :=
  if off ≤ 0x01C then
    match cregOfOffset off with
    | some c => .creg c
    | none => .unmapped
  else if 0x1000 ≤ off ∧ off ≤ 0x23FC then
    match bigOfIndex ((off - 0x1000) / 0x200) with
    | some x => .word x ((off - 0x1000) % 0x200 / 4)
    | none => .unmapped
  else .unmapped

/-- PARAM: W in [15:0], 0 in [31:16] (10_state.md R23). -/
def paramWord (p : Params) : Word := (BitVec.ofNat 16 p.w).setWidth 32

/-- What a control register reads (10_state.md R22 to R29). A read has no side effect (R67). -/
def State.readCReg (s : State) : CReg → Word
  | .id => Config.idWord
  | .param => paramWord s.params
  | .ctrl => ctrlWord s.irqEn
  | .status => statusWord s.busy s.status
  | .cmd => s.cmd
  | .bits => s.bits.setWidth 32
  | .rounds => s.rounds.setWidth 32
  | .errcode => s.errcode.setWidth 32

/-- What word `j` of a big-number window reads when it is not a destination of the running command: storage below NW,
0 from NW on (R64). -/
def State.readWord (s : State) (x : BigReg) (j : Nat) : Word :=
  if j < s.params.nw then bigWord (s.big.get x) j else 0

/-- The response port takes a response. -/
def State.respond (s : State) (r : Response) : State := { s with response := some r }

/-- A read answered with an unspecified value: the next free value, a fresh one each time (10_state.md R37). -/
def State.respondFree (s : State) (mk : Word → Response) : State :=
  { s with
    response  := some (mk (Config.unspecifiedRead s.freeReads))
    freeReads := s.freeReads + 1 }

/-- A read of a window word: a word of a register that is a destination of the running command is unspecified (R37,
log 5); a reserved word reads 0 in any window (R64). -/
def State.hostReadWord (s : State) (x : BigReg) (j : Nat) : State :=
  if j < s.params.nw ∧ x ∈ s.dst then s.respondFree .readOkay else s.respond (.readOkay (s.readWord x j))

/-- The effect of a write of `v` to a control register (10_state.md R22 to R29, 70_reset_and_hazards.md R205). -/
def State.writeCReg (s : State) (c : CReg) (v : Word) : State :=
  match c with
  | .id => s
  | .param => s
  | .errcode => s
  | .ctrl =>
    { s with
      irqEn        := v.getLsbD 1
      abortPending := s.abortPending || (v.getLsbD 0 && s.busy) }
  | .status => { s with status := s.status.clear v }
  | .cmd => if s.busy then s.drop else s.accept v
  | .bits => if s.busy then s.drop else { s with bits := v.setWidth 16 }
  | .rounds => if s.busy then s.drop else { s with rounds := v.setWidth 8 }

/-- The effect of a write of `v` to a window word (R64, R205): dropped while BUSY, ignored from NW on. -/
def State.writeWord (s : State) (x : BigReg) (j : Nat) (v : Word) : State :=
  if s.busy then s.drop
  else if j < s.params.nw then s.setBig x (setBigWord (s.big.get x) j v)
  else s

/-- The ERROR response: no state of the block changes (R62, R180). The data of a read is unspecified (R61, U7). -/
def State.busError (s : State) (a : Access) : State :=
  match a with
  | .read => s.respondFree .readError
  | .write _ => s.respond .writeError

/-- A transaction on a mapped target. -/
def State.hostAccess (s : State) (target : Target) (a : Access) : State :=
  match target, a with
  | .creg c, .read => s.respond (.readOkay (s.readCReg c))
  | .creg c, .write v => (s.writeCReg c v).respond .writeOkay
  | .word x j, .read => s.hostReadWord x j
  | .word x j, .write v => (s.writeWord x j v).respond .writeOkay
  | .unmapped, a => s.busError a

/-- One host step (10_state.md R20, 20_memory.md R61 to R68). -/
def hostStep (t : Txn) (s : State) : State :=
  if t.accepted then s.hostAccess (decodeOffset t.off.toNat) t.access else s.busError t.access

end Sys2Proof.Machine
end

