-- ==== Sys2Proof/Machine/Engine.lean ====
section
/-! DEFINITION. The engine step with its decode (30_encoding.md R81), and what each event of a run does (10_state.md
R20). -/

namespace Sys2Proof.Machine

/-- One engine step of an illegal command word: the ILLEGAL_CMD error completion (30_encoding.md R84). -/
def execIllegal (s : State) : Host.Outcome State Fault Refusal :=
  .next (s.engineTurn fun _ _ => s.raiseError .illegalCmd)

/-- One engine step (R20, R81): nothing when IDLE; else the running word, decoded, is run. -/
def engineStep (s : State) : Host.Outcome State Fault Refusal :=
  match s.eng with
  | .idle => .next s
  | .busy w _ =>
    match decode w with
    | .ok i => exec i s
    | .error _ => execIllegal s

/-- What an event does (R20). -/
def runEvent (e : Event) (s : State) : Host.Outcome State Fault Refusal :=
  match e with
  | .host t => .next (hostStep t s)
  | .engine draws quantum => engineStep (s.offer draws quantum)
  | .reset => .next s.doReset
  | .hostInReset _ => .refused .accessDuringReset

/-- The next event of the run: the first of `inputs`, or the next one the environment supplies (log 2). -/
def State.nextEvent (s : State) : Event :=
  match s.inputs with
  | [] => Config.environment s.freeEvents
  | e :: _ => e

/-- The state once its next event is taken. -/
def State.takeEvent (s : State) : State :=
  match s.inputs with
  | [] => { s with freeEvents := s.freeEvents + 1 }
  | _ :: es => { s with inputs := es }

/-- The command word `w` accepted and about to be decoded, with an engine step as the next event (log 9). -/
def State.loadCommand (s : State) (w : Word) : State :=
  { s.accept w with
    abortPending := false
    inputs       := .engine [] 1023 :: s.inputs }

end Sys2Proof.Machine
end

