-- ==== Sys2Proof/Machine/HostProgram.lean ====
section
/-! DEFINITION. The host's side: the statements of a host program and their expansion into bus transactions
(30_encoding.md R86, R87), and the conversion of octet strings (20_memory.md R66). The block's step does not use this
file: a host program is one source of the host events of a run (log 19). -/

namespace Sys2Proof.Machine

/-- A host expression: an unbounded integer over the host's variables, which are numbered (R86). `bit` is `s[i]`; `and`
and `or` act on the two values written mod `2^32`. -/
inductive HostExpr where
  | lit (v : Int)
  | var (x : Nat)
  | add (a b : HostExpr)
  | sub (a b : HostExpr)
  | mul (a b : HostExpr)
  | and (a b : HostExpr)
  | or (a b : HostExpr)
  | bit (a : HostExpr) (i : Nat)
  deriving DecidableEq, Repr

/-- A comparison of host values (R86). -/
inductive HostCond where
  | eq (a b : HostExpr)
  | ne (a b : HostExpr)
  | lt (a b : HostExpr)
  | le (a b : HostExpr)
  deriving DecidableEq, Repr

/-- The host statements (R86); `bind` names the variable a read binds. Labels are numbers. -/
inductive HostStmt where
  | wr (c : CReg) (v : HostExpr)
  | rd (c : CReg) (bind : Option Nat)
  | wrb (x : BigReg) (j : Nat) (v : HostExpr)
  | rdb (x : BigReg) (j : Nat) (bind : Option Nat)
  | cmd (i : Instr)
  | cmdw (v : HostExpr)
  | label (l : Nat)
  | goto (l : Nat)
  | ifGoto (c : HostCond) (l : Nat)
  deriving DecidableEq, Repr

/-- The pseudo-statements (R87). `wait` names the variable `s` and the label of its loop, `abort` the variable `c`;
`readbig` binds the words to the variables from `x0` on. -/
inductive PseudoStmt where
  | loadbig (x : BigReg) (v : Nat)
  | readbig (x : BigReg) (x0 : Nat)
  | wait (s l : Nat)
  | ack
  | abort (c : Nat)
  | run (i : Instr) (s l : Nat)
  deriving DecidableEq, Repr

/-- `WAIT` (R87): read STATUS until BUSY = 0. -/
def waitStmts (s l : Nat) : List HostStmt :=
  [.label l, .rd .status (some s), .ifGoto (.eq (.bit (.var s) 0) (.lit 1)) l]

/-- The expansion of a pseudo-statement (R87); all NW words of a register are loaded, in order. -/
def PseudoStmt.expand (p : Params) : PseudoStmt → List HostStmt
  | .loadbig x v => (List.range p.nw).map fun j => .wrb x j (.lit (bigWord v j).toNat)
  | .readbig x x0 => (List.range p.nw).map fun j => .rdb x j (some (x0 + j))
  | .wait s l => waitStmts s l
  | .ack => [.wr .status (.lit 0x16)]
  | .abort c => [.rd .ctrl (some c), .wr .ctrl (.or (.and (.var c) (.lit 2)) (.lit 1))]
  | .run i s l => .cmd i :: waitStmts s l

/-- A host program in execution: its statements, the number of the next one, and its variables, latest binding
first. -/
structure HostMachine where
  prog : List HostStmt
  pc   : Nat
  vars : List (Nat × Int)
  deriving DecidableEq, Repr

/-- The value of a variable; one that nothing has bound counts as 0 (log 19). -/
def lookupVar (vars : List (Nat × Int)) (x : Nat) : Int :=
  match vars with
  | [] => 0
  | (y, v) :: rest => if y = x then v else lookupVar rest x

/-- The word of a host value: the value mod `2^32` (R86). -/
def wordOfInt (v : Int) : Word := BitVec.ofInt 32 v

/-- The value of an expression (R86). -/
def HostExpr.eval (vars : List (Nat × Int)) : HostExpr → Int
  | .lit v => v
  | .var x => lookupVar vars x
  | .add a b => a.eval vars + b.eval vars
  | .sub a b => a.eval vars - b.eval vars
  | .mul a b => a.eval vars * b.eval vars
  | .and a b => ((wordOfInt (a.eval vars) &&& wordOfInt (b.eval vars)).toNat : Int)
  | .or a b => ((wordOfInt (a.eval vars) ||| wordOfInt (b.eval vars)).toNat : Int)
  | .bit a i => a.eval vars / 2 ^ i % 2

/-- Whether a comparison holds (R86). -/
def HostCond.holds (vars : List (Nat × Int)) : HostCond → Bool
  | .eq a b => a.eval vars == b.eval vars
  | .ne a b => a.eval vars != b.eval vars
  | .lt a b => a.eval vars < b.eval vars
  | .le a b => a.eval vars ≤ b.eval vars

/-- The offset of word `j` of a big-number register: `0x1000 + 0x200·index + 4j` (R86). -/
def bigOffset (x : BigReg) (j : Nat) : Nat := 0x1000 + 0x200 * bigIndex x + 4 * j

/-- The transaction of a statement; none for a control statement (R86). -/
def HostStmt.txn (vars : List (Nat × Int)) : HostStmt → Option Txn
  | .wr c v => some (.wr (BitVec.ofNat 16 (cregOffset c)) (wordOfInt (v.eval vars)))
  | .rd c _ => some (.rd (BitVec.ofNat 16 (cregOffset c)))
  | .wrb x j v => some (.wr (BitVec.ofNat 16 (bigOffset x j)) (wordOfInt (v.eval vars)))
  | .rdb x j _ => some (.rd (BitVec.ofNat 16 (bigOffset x j)))
  | .cmd i => some (.wr (BitVec.ofNat 16 (cregOffset .cmd)) (encode i))
  | .cmdw v => some (.wr (BitVec.ofNat 16 (cregOffset .cmd)) (wordOfInt (v.eval vars)))
  | .label _ => none
  | .goto _ => none
  | .ifGoto _ _ => none

/-- The variable a statement binds. -/
def HostStmt.binds : HostStmt → Option Nat
  | .rd _ x => x
  | .rdb _ _ x => x
  | .wr _ _ => none
  | .wrb _ _ _ => none
  | .cmd _ => none
  | .cmdw _ => none
  | .label _ => none
  | .goto _ => none
  | .ifGoto _ _ => none

/-- Where a label stands: its first place, or the program's end if it has none. -/
def labelPlace (prog : List HostStmt) (l : Nat) : Nat :=
  match prog with
  | [] => 0
  | s :: rest => if s = .label l then 0 else labelPlace rest l + 1

/-- Where the host goes on after a statement (R86). -/
def HostMachine.nextPc (h : HostMachine) : HostStmt → Nat
  | .goto l => labelPlace h.prog l
  | .ifGoto c l => if c.holds h.vars then labelPlace h.prog l else h.pc + 1
  | .wr _ _ => h.pc + 1
  | .rd _ _ => h.pc + 1
  | .wrb _ _ _ => h.pc + 1
  | .rdb _ _ _ => h.pc + 1
  | .cmd _ => h.pc + 1
  | .cmdw _ => h.pc + 1
  | .label _ => h.pc + 1

/-- The variables once the response to a read is bound. -/
def bindResponse (vars : List (Nat × Int)) (x : Option Nat) (r : Option Response) : List (Nat × Int) :=
  match x, r with
  | some x, some (.readOkay v) => (x, (v.toNat : Int)) :: vars
  | some x, some (.readError v) => (x, (v.toNat : Int)) :: vars
  | _, _ => vars

/-- One statement of a host program on the block: a control statement moves the host alone, any other makes its bus
transaction, one host step of the block (R86). A program past its end does nothing. -/
def HostMachine.turn (h : HostMachine) (s : State) : HostMachine × State :=
  match h.prog[h.pc]? with
  | none => (h, s)
  | some stmt =>
    match stmt.txn h.vars with
    | none => ({ h with pc := h.nextPc stmt }, s)
    | some t =>
      let s' := hostStep t s
      ({ h with pc := h.nextPc stmt, vars := bindResponse h.vars stmt.binds s'.response }, s')

/-- The integer of an octet string, most significant octet first (20_memory.md R66). -/
def octetsToNat (em : List (BitVec 8)) : Nat := em.foldl (fun m x => 256 * m + x.toNat) 0

/-- The `k` octets of an integer, most significant first (R66). -/
def natToOctets (k m : Nat) : List (BitVec 8) :=
  (List.range k).map fun i => BitVec.ofNat 8 (m / 2 ^ (8 * (k - 1 - i)))

end Sys2Proof.Machine
end

