-- ==== Sys2Proof/Machine/Reference.lean ====
section
/-! DEFINITION. The commands in one piece, as the rules' pseudocode writes them, on an explicit list of entropy answers
(40_prime_testing.md R100, R101, R105; 41_key_generation.md R120 to R123). The engine's micro-operations are to agree
with it; no step calls it. `none` says that the answers of the list do not end the command. -/

namespace Sys2Proof.Machine

/-- The split of `n - 1` into `d * 2^r` with `d` odd (R101). -/
def splitOdd (n : Nat) : Nat × Nat := splitLoop (n - 1) (n - 1) 0

/-- `MRw(n, t, ws)`: the test on an explicit witness list, defined for `t` witnesses in `[2, n-2]` (R100, R101). -/
def mrw (n t : Nat) (ws : List Nat) : Bool :=
  if n ≤ 1 then false
  else if n = 2 ∨ n = 3 then true
  else if n % 2 = 0 then false
  else (ws.take t).all (roundAccepts n (splitOdd n).1 (splitOdd n).2)

/-- `t` rounds, each with a witness drawn from the list; draws stop at the first round that rejects (R101). -/
def mrRounds (n d r : Nat) : Nat → List Nat → Option (Bool × List Nat)
  | 0, ds => some (true, ds)
  | _ + 1, [] => none
  | t + 1, raw :: ds =>
    if roundAccepts n d r (drawRange 2 (n - 2) raw) then mrRounds n d r t ds else some (false, ds)

/-- `MillerRabin(n, t)` on a list of answers: the verdict and the answers not used (R101). -/
def millerRabin (n t : Nat) (ds : List Nat) : Option (Bool × List Nat) :=
  if n ≤ 1 then some (false, ds)
  else if n = 2 ∨ n = 3 then some (true, ds)
  else if n % 2 = 0 then some (false, ds)
  else mrRounds n (splitOdd n).1 (splitOdd n).2 t ds

/-- `PrimeLoop(bits, t)` with a bound on its turns; each turn uses an answer, so the list's length suffices (R105,
R121). -/
def primeLoop (bits t : Nat) : Nat → List Nat → Option (Nat × List Nat)
  | 0, _ => none
  | _ + 1, [] => none
  | k + 1, raw :: ds =>
    match millerRabin (candidate bits raw) t ds with
    | none => none
    | some (true, rest) => some (candidate bits raw, rest)
    | some (false, rest) => primeLoop bits t k rest

/-- `DistinctPrime(h, t, p)` with a bound on its turns (R122). -/
def distinctPrime (h t p : Nat) : Nat → List Nat → Option (Nat × List Nat)
  | 0, _ => none
  | k + 1, ds =>
    match primeLoop h t ds.length ds with
    | none => none
    | some (q, rest) => if q = p then distinctPrime h t p k rest else some (q, rest)

/-- `ChooseE(phi)` from the trial `e` on (R123). -/
def chooseE (phi : Nat) : List Nat → Nat → Option (Nat × List Nat)
  | [], e => if gcd e phi = 1 then some (e, []) else none
  | raw :: ds, e =>
    if gcd e phi = 1 then some (e, raw :: ds) else chooseE phi ds (drawRange 2 (phi - 1) raw)

/-- The end of GEN_KEYS once its exponent is chosen: the inverse and the six results (R120, R124, R125). -/
def keyEnding (p q e : Nat) : Ending :=
  match modInv e (phiOf p q) with
  | some d => .success (.keyPair p q (p * q) (phiOf p q) e d)
  | none => .failure .keygenFailure

/-- GEN_KEYS once its primes are found, from the trial exponent `e` on (R120, R123). -/
def keyPairOf (p q e : Nat) (ds : List Nat) : Option (Ending × List Nat) :=
  (chooseE (phiOf p q) ds e).map fun (e, rest) => (keyEnding p q e, rest)

/-- GEN_KEYS after its checks (R120 to R123). -/
def keyPair (h t : Nat) (ds : List Nat) : Option (Ending × List Nat) :=
  (primeLoop h t ds.length ds).bind fun (p, rest) =>
    (distinctPrime h t p rest.length rest).bind fun (q, rest) => keyPairOf p q Config.e0 rest

/-- How command `i` ends on operands `o` when the entropy source answers `ds`, with the answers not used; its checks
come first, in the order of 60_exceptions.md R175. -/
def ending (i : Instr) (o : Operands) (ds : List Nat) : Option (Ending × List Nat) :=
  match i with
  | .nop => some (.success .nothing, ds)
  | .isPrime =>
    if o.t = 0 then some (.failure .badRounds, ds)
    else (millerRabin o.a o.t ds).map fun (v, rest) => (.success (.verdict v), rest)
  | .genPrime =>
    if o.bits < 2 ∨ o.w < o.bits then some (.failure .badBits, ds)
    else if o.t = 0 then some (.failure .badRounds, ds)
    else (primeLoop o.bits o.t ds.length ds).map fun (c, rest) => (.success (.result c), rest)
  | .genKeys =>
    if o.bits < 6 ∨ o.w < o.bits ∨ o.bits % 2 = 1 then some (.failure .badBits, ds)
    else if o.t = 0 then some (.failure .badRounds, ds)
    else keyPair (o.bits / 2) o.t ds
  | .modexp =>
    if o.m = 0 then some (.failure .modulusZero, ds)
    else some (.success (.result (modExp o.a o.b o.m)), ds)
  | .gcd => some (.success (.result (gcd o.a o.b)), ds)
  | .modinv =>
    if o.m = 0 then some (.failure .modulusZero, ds)
    else
      match modInv o.a o.m with
      | some v => some (.success (.result v), ds)
      | none => some (.failure .noInverse, ds)
  | .zeroize => some (.success .zeroAll, ds)

end Sys2Proof.Machine
end

