-- ==== Sys2Proof/WellFormed.lean ====
section
/-! DEFINITION. The checks on commands and parameters. A command of `Instr` has no field that could be out of range, so
every one is well formed. A bus transaction is checked by `Txn.accepted` (Machine/HostPort.lean), a command word by
`decode` (Decode.lean). -/

namespace Sys2Proof

/-- A command has no operand field (30_encoding.md R80), so each constructor is well formed. -/
def Instr.wf : Instr → Bool
  | .nop => true
  | .isPrime => true
  | .genPrime => true
  | .genKeys => true
  | .modexp => true
  | .gcd => true
  | .modinv => true
  | .zeroize => true

/-- The legal values of W: multiples of 32 from 64 to 4096 (00_scope.md R5). -/
def Params.legal (p : Params) : Bool := p.w % 32 == 0 && 64 ≤ p.w && p.w ≤ 4096

end Sys2Proof
end

