-- ==== Sys2Proof/Safety.lean ====
section
/-! DEFINITION. What holds of every state of a run: the invariant that each step keeps, with what the working values of
a running command mean (10_state.md R33, R34; 41_key_generation.md R127). -/

namespace Sys2Proof.Machine

/-- A partial exponentiation: `r` is `a` to the exponent bits already taken, mod `m`. -/
def PowWork.Ok (a b m : Nat) (p : PowWork) : Prop :=
  p.i ≤ bitlen b ∧ p.r = a ^ (b / 2 ^ p.i) % m

/-- A partial extended Euclid run: the gcd is kept, and each coefficient gives its remainder mod `m`. -/
def InvWork.Ok (a m : Nat) (v : InvWork) : Prop :=
  Nat.gcd v.r0 v.r1 = Nat.gcd a m ∧
  (m : Int) ∣ v.s0 * a - v.r0 ∧
  (m : Int) ∣ v.s1 * a - v.r1

/-- The rounds done so far all accepted, with witnesses of their range. -/
def RoundsDone (n d r i : Nat) : Prop :=
  ∃ ws : List Nat, ws.length = i ∧ ∀ a ∈ ws, 2 ≤ a ∧ a ≤ n - 2 ∧ roundAccepts n d r a = true

/-- A candidate under test: odd, at least 5, split, with `c.i` rounds accepted. -/
def MrCand.Ok (t : Nat) (c : MrCand) : Prop :=
  5 ≤ c.n ∧ c.n % 2 = 1 ∧ splitOdd c.n = (c.d, c.r) ∧ c.i ≤ t ∧ RoundsDone c.n c.d c.r c.i

/-- A Miller-Rabin test of `t` rounds in progress. -/
def MrWork.Ok (t : Nat) : MrWork → Prop
  | .check _ => True
  | .split n d r => 5 ≤ n ∧ n % 2 = 1 ∧ 0 < d ∧ d * 2 ^ r = n - 1
  | .witness c => c.Ok t
  | .power c a p => c.Ok t ∧ c.i < t ∧ 2 ≤ a ∧ a ≤ c.n - 2 ∧ p.Ok a c.d c.n
  | .square c x j =>
    c.Ok t ∧ c.i < t ∧
    ∃ a, 2 ≤ a ∧ a ≤ c.n - 2 ∧ roundAccepts c.n c.d c.r a = squareLoop c.n j x

/-- An odd number of exactly `bits` bits with its top bit set: the range of `Candidate(bits)` (40_prime_testing.md
R104). -/
def IsCandidate (bits c : Nat) : Prop := c % 2 = 1 ∧ 2 ^ (bits - 1) < c ∧ c < 2 ^ bits

/-- A witness list in `[2, n-2]^t`. For `n ≤ 3` that range is empty and no witness is drawn, so any list will do
(R101, R102). -/
def WitnessList (n t : Nat) (ws : List Nat) : Prop :=
  5 ≤ n → ws.length = t ∧ ∀ a ∈ ws, 2 ≤ a ∧ a ≤ n - 2

/-- What R106 says of a result of GEN_PRIME: a candidate that `MRw` accepts on some witness list. -/
def ProbablePrime (bits t c : Nat) : Prop :=
  IsCandidate bits c ∧ ∃ ws : List Nat, WitnessList c t ws ∧ mrw c t ws = true

/-- A search for a prime in progress. -/
def GenWork.Ok (bits t : Nat) : GenWork → Prop
  | .draw => True
  | .test m => m.Ok t ∧ IsCandidate bits m.n

/-- Two distinct results of the search. -/
def PrimePair (h t p q : Nat) : Prop := ProbablePrime h t p ∧ ProbablePrime h t q ∧ p ≠ q

/-- The trial `e`: the first one, or a redrawn one because the first has a common factor with `phi`
(41_key_generation.md R123). -/
def TrialE (phi e : Nat) : Prop :=
  e = Config.e0 ∨ (Nat.gcd Config.e0 phi ≠ 1 ∧ 2 ≤ e ∧ e ≤ phi - 1)

/-- A key generation in progress. -/
def KeysWork.Ok (h t : Nat) : KeysWork → Prop
  | .primeP g => g.Ok h t
  | .primeQ p g => ProbablePrime h t p ∧ g.Ok h t
  | .coprime p q e x y =>
    PrimePair h t p q ∧ TrialE (phiOf p q) e ∧ Nat.gcd x y = Nat.gcd e (phiOf p q)
  | .redrawE p q => PrimePair h t p q ∧ Nat.gcd Config.e0 (phiOf p q) ≠ 1
  | .inverse p q e v =>
    PrimePair h t p q ∧ TrialE (phiOf p q) e ∧ Nat.gcd e (phiOf p q) = 1 ∧ v.Ok e (phiOf p q)

/-- The command `i` is accepted and its first engine step is to come, with no abort pending (30_encoding.md R81). -/
def State.Started (s : State) (i : Instr) : Prop :=
  s.eng = .busy (encode i) .start ∧ s.abortPending = false

/-- The command `i` is running, with no abort pending. -/
def State.RunsFree (s : State) (i : Instr) : Prop :=
  ∃ work, s.eng = .busy (encode i) work ∧ s.abortPending = false

/-- A command is running and an abort is pending (43_control_commands.md R162). -/
def State.AbortDue (s : State) (i : Instr) : Prop :=
  ∃ work, s.eng = .busy (encode i) work ∧ s.abortPending = true

/-- What claims expect of a success completion with no result write: ENG IDLE, DONE = 1, ERROR = 0, ERRCODE = 0x00, all
else unchanged (60_exceptions.md R171). -/
def State.succeeded (s : State) : State :=
  { s with eng := .idle, status := { s.status with done := true, error := false }, errcode := 0x00 }

/-- What claims expect of an error completion with no register effect: ENG IDLE, no abort pending, DONE = 1, ERROR = 1,
the code in ERRCODE, all else unchanged (R172). -/
def State.failed (s : State) (code : BitVec 8) : State :=
  { s with
    eng          := .idle
    abortPending := false
    status       := { s.status with done := true, error := true }
    errcode      := code }

/-- The state with another bound on the micro-operations of the engine step in progress. -/
def State.withQuantum (s : State) (q : Nat) : State := { s with quantum := q }

/-- BITS and ROUNDS pass the checks of GEN_PRIME (40_prime_testing.md R105). -/
def Operands.primeChecks (o : Operands) : Prop := 2 ≤ o.bits ∧ o.bits ≤ o.w ∧ o.t ≠ 0

/-- BITS and ROUNDS pass the checks of GEN_KEYS (41_key_generation.md R120). -/
def Operands.keyChecks (o : Operands) : Prop :=
  6 ≤ o.bits ∧ o.bits ≤ o.w ∧ o.bits % 2 = 0 ∧ o.t ≠ 0

/-- The working values of a running command belong to it and mean what its rule says. -/
def Work.Ok (o : Operands) (i : Option Instr) (work : Work) : Prop :=
  match work with
  | .start => True
  | .test m => i = some .isPrime ∧ o.t ≠ 0 ∧ m.n = o.a ∧ m.Ok o.t
  | .gen g => i = some .genPrime ∧ o.primeChecks ∧ g.Ok o.bits o.t
  | .keys k => i = some .genKeys ∧ o.keyChecks ∧ k.Ok (o.bits / 2) o.t
  | .power p => i = some .modexp ∧ o.m ≠ 0 ∧ p.Ok o.a o.b o.m
  | .euclid x y => i = some .gcd ∧ Nat.gcd x y = Nat.gcd o.a o.b
  | .inverse v => i = some .modinv ∧ o.m ≠ 0 ∧ v.Ok o.a o.m

/-- What holds while a command runs: CMD still holds its word (R38), DONE and ERROR are 0 as acceptance left them
(30_encoding.md R81), PRIME is 0 during IS_PRIME (R35), and the working values are right. -/
def State.BusyOk (s : State) (w : Word) (work : Work) : Prop :=
  s.cmd = w ∧ s.status.done = false ∧ s.status.error = false ∧
  (decode? w = some .isPrime → s.status.prime = false) ∧
  work.Ok s.operands (decode? w)

/-- The invariant. -/
structure State.Inv (s : State) : Prop where
  /-- W is legal (00_scope.md R5). -/
  params : s.params.legal = true
  /-- Each big-number register is below `2^W` (R30). -/
  big : ∀ x : BigReg, s.big.get x < 2 ^ s.params.w
  /-- ERRCODE values 0x08 to 0xFF are never written (60_exceptions.md R173). -/
  errcode : s.errcode.toNat ≤ 7
  /-- ERROR = 1 comes with a code that is not success (60_exceptions.md R172). -/
  error : s.status.error = true → s.errcode ≠ 0
  /-- An abort is pending only while BUSY (R24, 43_control_commands.md R162). -/
  abort : s.eng = .idle → s.abortPending = false
  /-- While BUSY, as `BusyOk` says. -/
  busy : ∀ w work, s.eng = .busy w work → s.BusyOk w work

end Sys2Proof.Machine
end

