-- ==== Sys2Proof/Certificates/Slice0/Obligations.lean ====
section
/-! DEFINITION. The statements for the provers, from the numbered rules of spec/. A statement about a running command
speaks of the engine step `exec`; `quantum` bounds how much that step may do and `entropy` is what the entropy source
delivers in it (logs 1, 2 and 4), so "from some quantum on" reads "in every engine step that gets that far". -/

open Sys2Proof Sys2Proof.Machine

/-! ### Command words -/

/-- The words of 30_encoding.md R82 and illegal words of R84, read by the decoder. -/
def Obligations.WordsDecodeAsWritten : Prop :=
  decode 0x00000000 = .ok .nop ∧ decode 0x00000001 = .ok .isPrime ∧ decode 0x00000002 = .ok .genPrime ∧
  decode 0x00000003 = .ok .genKeys ∧ decode 0x00000004 = .ok .modexp ∧ decode 0x00000005 = .ok .gcd ∧
  decode 0x00000006 = .ok .modinv ∧ decode 0x00000007 = .ok .zeroize ∧
  decode 0x00000008 = .error .reservedOpcode ∧ decode 0x000000FF = .error .reservedOpcode ∧
  decode 0x00000104 = .error .reservedBits ∧ decode 0x80000003 = .error .reservedBits

/-- R82: the exact word is the only word that selects a command, and every word above 7 selects none. -/
def Obligations.OnlyTheExactWordSelects : Prop :=
  (∀ (w : Word) (i : Instr), decode w = .ok i ↔ w = encode i) ∧
  (encode .nop = 0x00000000 ∧ encode .isPrime = 0x00000001 ∧ encode .genPrime = 0x00000002 ∧
    encode .genKeys = 0x00000003 ∧ encode .modexp = 0x00000004 ∧ encode .gcd = 0x00000005 ∧
    encode .modinv = 0x00000006 ∧ encode .zeroize = 0x00000007) ∧
  (∀ w : Word, 7 < w.toNat → decode? w = none)

/-- R84: an illegal word ends with ILLEGAL_CMD in the engine's next step and changes no register but STATUS and
ERRCODE. -/
def Obligations.IllegalWordEndsWithItsCode : Prop :=
  ∀ (s : State) (w : Word) (work : Work), s.eng = .busy w work → s.abortPending = false →
    (w.toNat / 256 ≠ 0 ∨ 8 ≤ w.toNat % 256) → engineStep s = .next (s.failed 0x01)

/-- R81, the host step: a CMD write while IDLE accepts any word at once. -/
def Obligations.CmdWriteAccepts : Prop :=
  ∀ (s : State) (w : Word), s.eng = .idle →
    hostStep (.wr 0x010 w) s =
      { s with
        cmd      := w
        status   := ⟨false, false, if w = 0x00000001 then false else s.status.prime, s.status.overrun⟩
        eng      := .busy w .start
        response := some .writeOkay }

/-! ### Steps -/

/-- An engine step of a running command is `exec` of the command its word decodes to (R81). Around it, the step takes
the event off the run and offers its draws and its quantum. -/
def Obligations.StepRunsTheDecodedCommand : Prop :=
  ∀ (s : State) (es : List Event) (ds : List Nat) (q : Nat) (w : Word) (work : Work) (i : Instr),
    s.inputs = .engine ds q :: es → s.eng = .busy w work → decode w = .ok i →
    step s = exec i { s with inputs := es, entropy := ds, quantum := q }

/-- 60_exceptions.md R183 and 10_state.md R20: an engine step while IDLE changes nothing of the block, and a host event
is one host step. -/
def Obligations.StepWhenIdleAndOnHostEvents : Prop :=
  (∀ (s : State) (es : List Event) (ds : List Nat) (q : Nat), s.inputs = .engine ds q :: es → s.eng = .idle →
    step s = .next { s with inputs := es, entropy := ds, quantum := q }) ∧
  (∀ (s : State) (es : List Event) (t : Txn), s.inputs = .host t :: es →
    step s = .next (hostStep t { s with inputs := es }))

/-- 70_reset_and_hazards.md R200, R201: reset, at any moment, leaves the values of 10_state.md R39; a command in
progress ends with no completion. W and the run's own fields stay (log 11). -/
def Obligations.ResetLeavesItsValues : Prop :=
  ∀ s : State, ∃ t : State, runEvent .reset s = .next t ∧
    t.eng = .idle ∧ t.irqEn = false ∧ t.status = ⟨false, false, false, false⟩ ∧ t.cmd = 0x00000000 ∧
    t.bits = 0 ∧ t.rounds = 5 ∧ t.errcode = 0x00 ∧ (∀ x : BigReg, t.big.get x = 0) ∧
    t.abortPending = false ∧ t.irq = false ∧ t.params = s.params ∧
    t.readCReg .id = 0x52534B47 ∧ t.readCReg .param = BitVec.ofNat 32 (s.params.w % 65536)

/-- 10_state.md R21: ENG changes only when an accepted CMD write makes it BUSY, or when a completion (an abort ending
is one) or reset makes it IDLE; while BUSY its word stays. -/
def Obligations.EngineChangesOnlyAsListed : Prop :=
  ∀ s t : State, step s = .next t →
    (s.eng = .idle → ∀ w work, t.eng = .busy w work →
      work = .start ∧ t.cmd = w ∧ s.nextEvent = .host (.wr 0x010 w)) ∧
    (∀ w work, s.eng = .busy w work → t.eng = .idle →
      s.nextEvent = .reset ∨ (t.status.done = true ∧ ∃ ds q, s.nextEvent = .engine ds q)) ∧
    (∀ w work w' work', s.eng = .busy w work → t.eng = .busy w' work' → w' = w)

/-- 00_scope.md R5, 10_state.md R23: no step changes W. -/
def Obligations.WidthNeverChanges : Prop := ∀ s t : State, step s = .next t → t.params = s.params

/-! ### The invariant -/

/-- The invariant holds at reset. That W is legal there rests on the model's choice of W in `State.reset` (log 3). -/
def Obligations.InvariantAtReset : Prop := State.reset.Inv

/-- Every step keeps the invariant, from every state that has it: registers below `2^W` (10_state.md R30), ERRCODE at
most 0x07 (60_exceptions.md R173), ERROR only with a code, an abort pending only while BUSY, and while BUSY the command
word, the cleared flags and the meaning of every working value (10_state.md R33, R38). -/
def Obligations.StepKeepsInvariant : Prop := ∀ s t : State, s.Inv → step s = .next t → t.Inv

/-! ### The register window -/

/-- 20_memory.md R63: the address decode, with the response of each range; an unmapped offset has no effect on the block
(`freeReads` counts the unspecified data of an ERROR response, log 6). -/
def Obligations.AddressDecode : Prop :=
  (decodeOffset 0x000 = .creg .id ∧ decodeOffset 0x004 = .creg .param ∧ decodeOffset 0x008 = .creg .ctrl ∧
    decodeOffset 0x00C = .creg .status ∧ decodeOffset 0x010 = .creg .cmd ∧ decodeOffset 0x014 = .creg .bits ∧
    decodeOffset 0x018 = .creg .rounds ∧ decodeOffset 0x01C = .creg .errcode) ∧
  (∀ i j : Nat, i < 10 → j < 128 →
    ∃ x, BigReg.all[i]? = some x ∧ decodeOffset (0x1000 + 0x200 * i + 4 * j) = .word x j) ∧
  (∀ off : Nat, off % 4 = 0 → (0x020 ≤ off ∧ off ≤ 0x0FFC ∨ 0x2400 ≤ off) → decodeOffset off = .unmapped) ∧
  (∀ (s : State) (off : BitVec 16) (v : Word), off.toNat % 4 = 0 →
    ((off.toNat ≤ 0x01C ∨ 0x1000 ≤ off.toNat ∧ off.toNat ≤ 0x23FC) →
      (∃ u, (hostStep (.rd off) s).response = some (.readOkay u)) ∧
      (hostStep (.wr off v) s).response = some .writeOkay) ∧
    ((0x020 ≤ off.toNat ∧ off.toNat ≤ 0x0FFC ∨ 0x2400 ≤ off.toNat) →
      (∃ u, hostStep (.rd off) s = { s with response := some (.readError u), freeReads := s.freeReads + 1 }) ∧
      hostStep (.wr off v) s = { s with response := some .writeError }))

/-- 60_exceptions.md R180 (with 20_memory.md R62, R63): a rejected access gets an ERROR response and changes nothing
of the block; the data of a rejected read is the next unspecified value (log 6). Reads and writes carry strobes
(log 12). -/
def Obligations.RejectedAccessChangesNothing : Prop :=
  ∀ (s : State) (off : BitVec 16) (size : Nat) (v : Word) (strobes : BitVec 4),
    (size ≠ 4 ∨ strobes ≠ 0xF ∨ off.toNat % 4 ≠ 0 ∨ (0x020 ≤ off.toNat ∧ off.toNat ≤ 0x0FFC) ∨
      0x2400 ≤ off.toNat) →
    hostStep ⟨off, size, strobes, .read⟩ s =
      { s with
        response  := some (.readError (Config.unspecifiedRead s.freeReads))
        freeReads := s.freeReads + 1 } ∧
    hostStep ⟨off, size, strobes, .write v⟩ s = { s with response := some .writeError }

/-- 70_reset_and_hazards.md R205: what each write does while BUSY. -/
def Obligations.WritesWhileBusy : Prop :=
  (∀ (s : State) (w : Word) (work : Work) (v : Word), s.eng = .busy w work →
    (∀ off : BitVec 16,
      (off = 0x010 ∨ off = 0x014 ∨ off = 0x018 ∨
        (0x1000 ≤ off.toNat ∧ off.toNat ≤ 0x23FC ∧ off.toNat % 4 = 0)) →
      hostStep (.wr off v) s =
        { s with status := { s.status with overrun := true }, response := some .writeOkay }) ∧
    hostStep (.wr 0x008 v) s =
      { s with
        irqEn        := v.getLsbD 1
        abortPending := s.abortPending || v.getLsbD 0
        response     := some .writeOkay } ∧
    hostStep (.wr 0x00C v) s =
      { s with
        status   := ⟨s.status.done && !v.getLsbD 1, s.status.error && !v.getLsbD 2, s.status.prime,
                      s.status.overrun && !v.getLsbD 4⟩
        response := some .writeOkay }) ∧
  (∀ (s : State) (v : Word) (off : BitVec 16), off = 0x000 ∨ off = 0x004 ∨ off = 0x01C →
    hostStep (.wr off v) s = { s with response := some .writeOkay })

/-- 10_state.md R22, R23: ID and PARAM read their hardwired values in every state, and a write to them does nothing. -/
def Obligations.IdAndParamAreHardwired : Prop :=
  (∀ s : State, hostStep (.rd 0x000) s = { s with response := some (.readOkay 0x52534B47) }) ∧
  (∀ s : State, s.params.w < 65536 → ∃ v : Word,
    hostStep (.rd 0x004) s = { s with response := some (.readOkay v) } ∧ v.toNat = s.params.w) ∧
  (∀ (s : State) (v : Word), hostStep (.wr 0x000 v) s = { s with response := some .writeOkay } ∧
    hostStep (.wr 0x004 v) s = { s with response := some .writeOkay })

/-- 10_state.md R26, R27: BITS and ROUNDS take any value of their fields while IDLE, and read back with reserved bits
0. -/
def Obligations.BitsAndRoundsReadBack : Prop :=
  ∀ (s : State) (v : Word), s.eng = .idle →
    (∃ t : State, hostStep (.wr 0x014 v) s = t ∧ t = { s with bits := t.bits, response := some .writeOkay } ∧
      t.bits.toNat = v.toNat % 65536 ∧
      ∃ u : Word, hostStep (.rd 0x014) t = { t with response := some (.readOkay u) } ∧
        u.toNat = v.toNat % 65536) ∧
    (∃ t : State, hostStep (.wr 0x018 v) s = t ∧ t = { s with rounds := t.rounds, response := some .writeOkay } ∧
      t.rounds.toNat = v.toNat % 256 ∧
      ∃ u : Word, hostStep (.rd 0x018) t = { t with response := some (.readOkay u) } ∧ u.toNat = v.toNat % 256)

/-- 10_state.md R25: what STATUS reads, bit by bit, and what a write to it clears. -/
def Obligations.StatusReadsAndClears : Prop :=
  (∀ s : State, ∃ u : Word, hostStep (.rd 0x00C) s = { s with response := some (.readOkay u) } ∧
    (u.getLsbD 0 = true ↔ ∃ w work, s.eng = .busy w work) ∧
    u.getLsbD 1 = s.status.done ∧ u.getLsbD 2 = s.status.error ∧ u.getLsbD 3 = s.status.prime ∧
    u.getLsbD 4 = s.status.overrun ∧ ∀ k, 5 ≤ k → u.getLsbD k = false) ∧
  (∀ (s : State) (v : Word), hostStep (.wr 0x00C v) s =
    { s with
      status   := ⟨s.status.done && !v.getLsbD 1, s.status.error && !v.getLsbD 2, s.status.prime,
                    s.status.overrun && !v.getLsbD 4⟩
      response := some .writeOkay })

/-- 10_state.md R24: what CTRL reads; a write stores IRQ_EN, and bit 0 requests an abort only while BUSY. -/
def Obligations.CtrlReadsAndWrites : Prop :=
  (∀ s : State, ∃ u : Word, hostStep (.rd 0x008) s = { s with response := some (.readOkay u) } ∧
    u.getLsbD 1 = s.irqEn ∧ ∀ k, k ≠ 1 → u.getLsbD k = false) ∧
  (∀ (s : State) (v : Word), s.eng = .idle → hostStep (.wr 0x008 v) s =
    { s with irqEn := v.getLsbD 1, response := some .writeOkay }) ∧
  (∀ (s : State) (v : Word) (w : Word) (work : Work), s.eng = .busy w work → hostStep (.wr 0x008 v) s =
    { s with
      irqEn        := v.getLsbD 1
      abortPending := s.abortPending || v.getLsbD 0
      response     := some .writeOkay })

/-- 10_state.md R28, R29: CMD and ERRCODE read what they hold, and no host write changes ERRCODE. -/
def Obligations.CmdAndErrcodeRead : Prop :=
  (∀ s : State, hostStep (.rd 0x010) s = { s with response := some (.readOkay s.cmd) }) ∧
  (∀ s : State, ∃ u : Word, hostStep (.rd 0x01C) s = { s with response := some (.readOkay u) } ∧
    u.toNat = s.errcode.toNat) ∧
  (∀ (s : State) (t : Txn), (hostStep t s).errcode = s.errcode)

/-- 20_memory.md R64: a word written while IDLE is the only word of its register that changes, and the only register
that changes; a reserved word ignores the write. -/
def Obligations.WordWriteReplacesOneWord : Prop :=
  ∀ (s : State) (x : BigReg) (j : Nat) (v : Word), s.eng = .idle → j < 128 →
    (j < s.params.w / 32 → ∃ u : Nat,
      hostStep (.wr (BitVec.ofNat 16 (bigOffset x j)) v) s =
        { s with big := s.big.set x u, response := some .writeOkay } ∧
      ∀ k : Nat, u / 2 ^ (32 * k) % 2 ^ 32 = if k = j then v.toNat else s.big.get x / 2 ^ (32 * k) % 2 ^ 32) ∧
    (s.params.w / 32 ≤ j →
      hostStep (.wr (BitVec.ofNat 16 (bigOffset x j)) v) s = { s with response := some .writeOkay })

/-- 20_memory.md R64, 10_state.md R38: a word of a register outside the running command's destinations (any register
while IDLE) reads bits `32j+31 : 32j`, a reserved word of any register reads 0 whether BUSY or not, and the read changes
nothing. -/
def Obligations.WordReadsAreExact : Prop :=
  ∀ (s : State) (x : BigReg) (j : Nat), j < 128 →
    (s.params.w / 32 ≤ j ∨
      ∀ (w : Word) (work : Work) (i : Instr), s.eng = .busy w work → decode w = .ok i → x ∉ dstOf i) →
    ∃ u : Word, hostStep (.rd (BitVec.ofNat 16 (bigOffset x j))) s = { s with response := some (.readOkay u) } ∧
      u.toNat = if j < s.params.w / 32 then s.big.get x / 2 ^ (32 * j) % 2 ^ 32 else 0

/-- 10_state.md R37: a read of a word of a destination register of the running command is answered with a fresh
unspecified value (log 5) and changes nothing else of the block. -/
def Obligations.DestinationReadsAreUnspecified : Prop :=
  ∀ (s : State) (w : Word) (work : Work) (i : Instr) (x : BigReg) (j : Nat), s.eng = .busy w work →
    decode w = .ok i → x ∈ dstOf i → j < 128 → j < s.params.w / 32 →
    hostStep (.rd (BitVec.ofNat 16 (bigOffset x j))) s =
      { s with
        response  := some (.readOkay (Config.unspecifiedRead s.freeReads))
        freeReads := s.freeReads + 1 }

/-- 10_state.md R36: the destination set of each command, and the empty one of an illegal word. -/
def Obligations.DestinationSets : Prop :=
  (dstOf .nop = [] ∧ dstOf .isPrime = [] ∧ dstOf .genPrime = [.r] ∧ dstOf .modexp = [.r] ∧ dstOf .gcd = [.r] ∧
    dstOf .modinv = [.r] ∧ dstOf .genKeys = [.p, .q, .n, .phi, .e, .d] ∧
    dstOf .zeroize = [.a, .b, .m, .r, .p, .q, .n, .phi, .e, .d]) ∧
  (∀ i : Instr, dstHasPrime i = true ↔ (i = .isPrime ∨ i = .zeroize)) ∧
  (∀ (s : State) (w : Word) (work : Work), s.eng = .busy w work → decode? w = none →
    s.dst = [] ∧ s.dstPrime = false)

/-- 20_memory.md R67: a read has no side effect; only the response and the count of unspecified values change. -/
def Obligations.ReadsHaveNoSideEffect : Prop :=
  ∀ (s : State) (off : BitVec 16) (size : Nat) (strobes : BitVec 4),
    hostStep ⟨off, size, strobes, .read⟩ s =
      { s with
        response  := (hostStep ⟨off, size, strobes, .read⟩ s).response
        freeReads := (hostStep ⟨off, size, strobes, .read⟩ s).freeReads }

/-- 10_state.md R31, R38, 20_memory.md R71: while BUSY no host transaction changes a big-number register, BITS, ROUNDS,
CMD, ERRCODE, PRIME or the engine, so the operands of the running command cannot change. -/
def Obligations.OperandsAreFrozenWhileBusy : Prop :=
  ∀ (s : State) (t : Txn) (w : Word) (work : Work), s.eng = .busy w work →
    (hostStep t s).big = s.big ∧ (hostStep t s).bits = s.bits ∧ (hostStep t s).rounds = s.rounds ∧
    (hostStep t s).cmd = s.cmd ∧ (hostStep t s).errcode = s.errcode ∧ (hostStep t s).eng = s.eng ∧
    (hostStep t s).status.prime = s.status.prime ∧ (hostStep t s).operands = s.operands

/-- 20_memory.md R64: a big number is the sum of its words. -/
def Obligations.BigNumberIsTheSumOfItsWords : Prop :=
  ∀ w x : Nat, w % 32 = 0 → x < 2 ^ w →
    x = ∑ j ∈ Finset.range (w / 32), (bigWord x j).toNat * 2 ^ (32 * j)

/-- 30_encoding.md R87: the statements of `LOADBIG x, v`, run by the host while the block is IDLE, leave `v` in the
register and change no other. -/
def Obligations.LoadbigLoadsTheNumber : Prop :=
  ∀ (s : State) (x : BigReg) (v : Nat), s.eng = .idle → s.params.legal = true → s.big.get x < 2 ^ s.params.w →
    v < 2 ^ s.params.w →
    ((PseudoStmt.loadbig x v).expand s.params).foldl
        (fun s stmt => match stmt.txn [] with
          | some t => hostStep t s
          | none => s) s
      = { s with big := s.big.set x v, response := some .writeOkay }

/-- 20_memory.md R66: the octets of an integer below `256^k` read back as the integer. -/
def Obligations.OctetsRoundTrip : Prop :=
  ∀ k m : Nat, m < 256 ^ k → octetsToNat (natToOctets k m) = m ∧ (natToOctets k m).length = k

/-- 60_exceptions.md R177: irq is IRQ_EN AND DONE. Enabling it while DONE is set raises it at once, and writing 1 to
STATUS.DONE, or accepting a command, lowers it. -/
def Obligations.InterruptLine : Prop :=
  (∀ s : State, s.irq = true ↔ (s.irqEn = true ∧ s.status.done = true)) ∧
  (∀ (s : State) (v : Word), s.status.done = true → (hostStep (.wr 0x008 v) s).irq = v.getLsbD 1) ∧
  (∀ (s : State) (v : Word), v.getLsbD 1 = true → (hostStep (.wr 0x00C v) s).irq = false) ∧
  (∀ (s : State) (w : Word), s.eng = .idle → (hostStep (.wr 0x010 w) s).irq = false)

/-- 10_state.md R35: PRIME changes only by IS_PRIME (its acceptance or an engine step of it), by ZEROIZE, or by
reset. -/
def Obligations.PrimeFlagWriters : Prop :=
  ∀ s t : State, step s = .next t → t.status.prime ≠ s.status.prime →
    s.nextEvent = .reset ∨
    (s.nextEvent = .host (.wr 0x010 0x00000001) ∧ s.eng = .idle) ∨
    (∃ ds q work, s.nextEvent = .engine ds q ∧
      (s.eng = .busy (encode .isPrime) work ∨ s.eng = .busy (encode .zeroize) work))

/-! ### Every command -/

/-- Frame of an engine step that does not end its command (10_state.md R38, 20_memory.md R68): only the working values
and the use of draws change, for all eight commands. -/
def Obligations.UnfinishedStepFrame : Prop :=
  ∀ (i : Instr) (s t : State), exec i s = .next t → t.eng ≠ .idle →
    t = { s with eng := t.eng, draws := t.draws, entropy := t.entropy } ∧
    (∀ w work, s.eng = .busy w work → ∃ work', t.eng = .busy w work')

/-- Frame of every engine step (10_state.md R31, R35, R36): registers outside the destination set, PRIME unless the
command is IS_PRIME or ZEROIZE, CTRL, OVERRUN, CMD, BITS, ROUNDS and W are unchanged, for all eight commands. -/
def Obligations.EngineStepFrame : Prop :=
  ∀ (i : Instr) (s t : State) (work : Work), s.eng = .busy (encode i) work → exec i s = .next t →
    (∀ x : BigReg, x ∉ dstOf i → t.big.get x = s.big.get x) ∧
    (i ≠ .isPrime → i ≠ .zeroize → t.status.prime = s.status.prime) ∧
    t.status.overrun = s.status.overrun ∧ t.irqEn = s.irqEn ∧ t.cmd = s.cmd ∧ t.bits = s.bits ∧
    t.rounds = s.rounds ∧ t.params = s.params ∧ t.response = s.response ∧ t.inputs = s.inputs ∧
    t.quantum = s.quantum ∧ t.freeEvents = s.freeEvents ∧ t.freeReads = s.freeReads

/-- 43_control_commands.md R162, 60_exceptions.md R174, R176: when an abort is pending, the next engine step of any
command is the abort ending, whatever the command would have done; the destination set becomes 0. An illegal word's
destination set is empty. -/
def Obligations.AbortEndingComesFirst : Prop :=
  (∀ (i : Instr) (s : State), s.AbortDue i → ∃ t : State, exec i s = .next t ∧
    t = { s.failed 0x07 with big := t.big, status := t.status } ∧
    t.status = ⟨true, true, if i = .isPrime ∨ i = .zeroize then false else s.status.prime, s.status.overrun⟩ ∧
    ∀ x : BigReg, t.big.get x = if x ∈ dstOf i then 0 else s.big.get x) ∧
  (∀ (s : State) (w : Word) (work : Work), s.eng = .busy w work → s.abortPending = true → decode? w = none →
    engineStep s = .next (s.failed 0x07))

/-- 60_exceptions.md R171, R172, R173, R174: what every completion of every command leaves. DONE is 1, no abort is
pending, ERROR is 1 exactly with a code, which is one of seven; a check error changes no register and not PRIME; a late
error zeroes the destination set and leaves the other registers. -/
def Obligations.CompletionFlagsAndErrorEffects : Prop :=
  ∀ (i : Instr) (s t : State) (work : Work), s.eng = .busy (encode i) work → exec i s = .next t → t.eng = .idle →
    t.status.done = true ∧ t.abortPending = false ∧ t.errcode.toNat ≤ 0x07 ∧
    (t.status.error = true ↔ t.errcode ≠ 0x00) ∧
    (1 ≤ t.errcode.toNat → t.errcode.toNat ≤ 4 → t.big = s.big ∧ t.status.prime = s.status.prime) ∧
    (5 ≤ t.errcode.toNat →
      (∀ x : BigReg, t.big.get x = if x ∈ dstOf i then 0 else s.big.get x) ∧
      t.status.prime = if i = .isPrime ∨ i = .zeroize then false else s.status.prime)

/-- How far each engine step gets does not matter (93_implementation_defined.md U3, log 1): two engine steps, the second
going on where the first paused with the answers it left, do what one step of both their micro-operations does. -/
def Obligations.EngineSlicingDoesNotMatter : Prop :=
  ∀ (i : Instr) (s t : State) (q k : Nat), s.RunsFree i → exec i (s.withQuantum q) = .next t → t.busy = true →
    ∃ u : State, exec i (t.withQuantum k) = .next (u.withQuantum k) ∧
      exec i (s.withQuantum (q + k + 1)) = .next (u.withQuantum (q + k + 1))

/-- 60_exceptions.md R175: the order of the checks in the first step of a command, after ILLEGAL_CMD. -/
def Obligations.CheckPriority : Prop :=
  (∀ s : State, s.Started .genPrime →
    (s.bits.toNat < 2 ∨ s.params.w < s.bits.toNat → exec .genPrime s = .next (s.failed 0x02)) ∧
    (2 ≤ s.bits.toNat → s.bits.toNat ≤ s.params.w → s.rounds = 0 → exec .genPrime s = .next (s.failed 0x03))) ∧
  (∀ s : State, s.Started .genKeys →
    (s.bits.toNat < 6 ∨ s.params.w < s.bits.toNat ∨ s.bits.toNat % 2 = 1 →
      exec .genKeys s = .next (s.failed 0x02)) ∧
    (6 ≤ s.bits.toNat → s.bits.toNat ≤ s.params.w → s.bits.toNat % 2 = 0 → s.rounds = 0 →
      exec .genKeys s = .next (s.failed 0x03))) ∧
  (∀ s : State, s.Started .isPrime → s.rounds = 0 → exec .isPrime s = .next (s.failed 0x03)) ∧
  (∀ s : State, s.Started .modexp → s.big.m = 0 → exec .modexp s = .next (s.failed 0x04)) ∧
  (∀ s : State, s.Started .modinv → s.big.m = 0 → exec .modinv s = .next (s.failed 0x04))

/-- Refinement: every command, run by micro-operations, ends as the rules' pseudocode in one piece says (`ending`), from
some quantum on; a smaller quantum leaves it running. -/
def Obligations.CommandsEndAsTheirPseudocode : Prop :=
  ∀ (i : Instr) (s : State) (e : Ending) (rest : List Nat), s.Started i →
    ending i s.operands s.entropy = some (e, rest) →
    ∃ q0 : Nat,
      (∀ q, q0 ≤ q → exec i (s.withQuantum q) =
        .next ((s.withQuantum q).afterBurst (encode i) (.finished e rest))) ∧
      (∀ q, q < q0 → ∃ t : State, exec i (s.withQuantum q) = .next t ∧ t.busy = true)

/-- 40_prime_testing.md R107, 41_key_generation.md R130, 70_reset_and_hazards.md R213: as long as the draws delivered do
not end the pseudocode's loops, the command stays BUSY and writes nothing, however much the engine does. -/
def Obligations.CommandsWaitForDraws : Prop :=
  ∀ (i : Instr) (s : State), s.Started i → ending i s.operands s.entropy = none →
    ∀ q, ∃ t : State, exec i (s.withQuantum q) = .next t ∧ t.busy = true ∧ t.big = s.big ∧ t.status = s.status ∧
      t.errcode = s.errcode

/-! ### NOP, ZEROIZE, MODEXP, GCD, MODINV -/

/-- 43_control_commands.md R160: NOP completes with no effect; ABORTED if an abort is honoured; its word is the reset
value of CMD, and reset does not run it. That the very next engine step completes it is the model's granularity of
engine steps (log 1). -/
def Obligations.NopCompletes : Prop :=
  (encode .nop = 0x00000000 ∧ State.reset.cmd = encode .nop ∧ State.reset.eng = .idle) ∧
  (∀ s : State, s.RunsFree .nop → exec .nop s = .next s.succeeded) ∧
  (∀ s : State, s.AbortDue .nop → exec .nop s = .next (s.failed 0x07))

/-- 43_control_commands.md R161: ZEROIZE clears all ten registers and PRIME, however it ends. That the very next engine
step ends it is the model's granularity of engine steps (log 1). -/
def Obligations.ZeroizeClearsEverything : Prop :=
  encode .zeroize = 0x00000007 ∧
  (∀ s : State, s.RunsFree .zeroize → exec .zeroize s = .next
    { s.succeeded with
      big    := ⟨0, 0, 0, 0, 0, 0, 0, 0, 0, 0⟩
      status := ⟨true, false, false, s.status.overrun⟩ }) ∧
  (∀ s : State, s.AbortDue .zeroize → exec .zeroize s = .next
    { s.failed 0x07 with
      big    := ⟨0, 0, 0, 0, 0, 0, 0, 0, 0, 0⟩
      status := ⟨true, true, false, s.status.overrun⟩ })

/-- 42_modular_arithmetic.md R140, in an engine step with room for the exponent's bits (log 1): `R := A^B mod M`, with
`0^0 = 1` and any exponent; MODULUS_ZERO with R unchanged; ABORTED with R = 0. -/
def Obligations.ModexpComputesThePower : Prop :=
  (∀ s : State, s.Started .modexp → s.big.m ≠ 0 → bitlen s.big.b + 1 ≤ s.quantum → exec .modexp s = .next
    { s.succeeded with big := { s.big with r := s.big.a ^ s.big.b % s.big.m } }) ∧
  (∀ s : State, s.Started .modexp → s.big.m = 0 → exec .modexp s = .next (s.failed 0x04)) ∧
  (∀ s : State, s.AbortDue .modexp → exec .modexp s = .next
    { s.failed 0x07 with big := { s.big with r := 0 } })

/-- 42_modular_arithmetic.md R142, in an engine step with room for the loop (log 1): `R := gcd(A, B)`, with `gcd(0, 0)
= 0` and no operand error; ABORTED with R = 0. -/
def Obligations.GcdComputesTheDivisor : Prop :=
  (∀ s : State, s.Started .gcd → s.big.b + 1 ≤ s.quantum → exec .gcd s = .next
    { s.succeeded with big := { s.big with r := Nat.gcd s.big.a s.big.b } }) ∧
  (∀ s : State, s.AbortDue .gcd → exec .gcd s = .next { s.failed 0x07 with big := { s.big with r := 0 } })

/-- 42_modular_arithmetic.md R144, in an engine step with room for the loop (log 1): `R := A^-1 mod M`, the only value
below M with `A R mod M = 1 mod M`; NO_INVERSE with R = 0 when the gcd is not 1; MODULUS_ZERO with R unchanged;
ABORTED with R = 0. -/
def Obligations.ModinvComputesTheInverse : Prop :=
  (∀ s : State, s.Started .modinv → s.big.m ≠ 0 → s.big.m + 1 ≤ s.quantum →
    Nat.gcd (s.big.a % s.big.m) s.big.m = 1 → ∃ v : Nat,
      exec .modinv s = .next { s.succeeded with big := { s.big with r := v } } ∧
      v < s.big.m ∧ s.big.a * v % s.big.m = 1 % s.big.m ∧
      ∀ u : Nat, u < s.big.m → s.big.a * u % s.big.m = 1 % s.big.m → u = v) ∧
  (∀ s : State, s.Started .modinv → s.big.m ≠ 0 → s.big.m + 1 ≤ s.quantum →
    Nat.gcd (s.big.a % s.big.m) s.big.m ≠ 1 → exec .modinv s = .next
      { s.failed 0x05 with big := { s.big with r := 0 } }) ∧
  (∀ s : State, s.Started .modinv → s.big.m = 0 → exec .modinv s = .next (s.failed 0x04)) ∧
  (∀ s : State, s.AbortDue .modinv → exec .modinv s = .next { s.failed 0x07 with big := { s.big with r := 0 } })

/-! ### Prime testing and generation -/

/-- 40_prime_testing.md R102, the corner cases: numbers decided without a witness, in an engine step of at least two
micro-operations (log 1). -/
def Obligations.IsPrimeCornerCases : Prop :=
  ∀ s : State, s.Started .isPrime → s.rounds ≠ 0 → 1 ≤ s.quantum →
    (s.big.a ≤ 1 ∨ (s.big.a % 2 = 0 ∧ 4 ≤ s.big.a) → exec .isPrime s = .next
      { s.succeeded with status := ⟨true, false, false, s.status.overrun⟩ }) ∧
    (s.big.a = 2 ∨ s.big.a = 3 → exec .isPrime s = .next
      { s.succeeded with status := ⟨true, false, true, s.status.overrun⟩ })

/-- 40_prime_testing.md R101, R102: with a witness delivered for each round, IS_PRIME ends with PRIME the value of
`MRw` on the witnesses drawn, and writes no register, from some quantum on (log 1). -/
def Obligations.IsPrimeVerdictFollowsTheWitnesses : Prop :=
  ∀ s : State, s.Started .isPrime → s.rounds ≠ 0 → s.rounds.toNat ≤ s.entropy.length →
    ∃ q0 : Nat, ∀ q, q0 ≤ q → ∃ t : State, exec .isPrime (s.withQuantum q) = .next t ∧
      t.eng = .idle ∧ t.errcode = 0x00 ∧ t.big = s.big ∧
      t.status = ⟨true, false,
        mrw s.big.a s.rounds.toNat ((s.entropy.take s.rounds.toNat).map (drawRange 2 (s.big.a - 2))),
        s.status.overrun⟩

/-- 40_prime_testing.md R103: for every prime, whatever answer is delivered for each round, IS_PRIME gives PRIME = 1 from
some quantum on (log 1). -/
def Obligations.IsPrimeAcceptsEveryPrime : Prop :=
  ∀ s : State, s.Started .isPrime → s.rounds ≠ 0 → s.rounds.toNat ≤ s.entropy.length → Nat.Prime s.big.a →
    ∃ q0 : Nat, ∀ q, q0 ≤ q → ∃ t : State, exec .isPrime (s.withQuantum q) = .next t ∧
      t.eng = .idle ∧ t.status = ⟨true, false, true, s.status.overrun⟩ ∧ t.errcode = 0x00 ∧ t.big = s.big

/-- 40_prime_testing.md R103, 90_conflicts.md C2: the composite 25 is reported prime on witnesses that are liars, and
composite on others, so neither verdict is fixed. -/
def Obligations.LiarsAdmitBothVerdicts : Prop :=
  mrw 25 5 [7, 18, 7, 18, 7] = true ∧ mrw 25 5 [2, 7, 18, 7, 18] = false ∧
  (∀ a : Nat, 2 ≤ a → a ≤ 23 → (mrw 25 1 [a] = true ↔ a = 7 ∨ a = 18)) ∧ mrw 2047 5 [2, 2, 2, 2, 2] = true

/-- 40_prime_testing.md R105, R106: every odd prime of the bit length asked for (2, the one even prime, is no candidate,
R104) is the result of GEN_PRIME on some draws: itself as the candidate, then any witnesses; from some quantum on
(log 1). -/
def Obligations.GenPrimeCanReturnEveryPrime : Prop :=
  ∀ (s : State) (c : Nat) (ws : List Nat), s.Started .genPrime → 2 ≤ s.bits.toNat → s.bits.toNat ≤ s.params.w →
    s.rounds ≠ 0 → Nat.Prime c → 2 ^ (s.bits.toNat - 1) < c → c < 2 ^ s.bits.toNat → s.entropy = c :: ws →
    s.rounds.toNat ≤ ws.length →
    ∃ q0 : Nat, ∀ q, q0 ≤ q → ∃ t : State, exec .genPrime (s.withQuantum q) = .next t ∧
      t.eng = .idle ∧ t.status = ⟨true, false, s.status.prime, s.status.overrun⟩ ∧ t.errcode = 0x00 ∧
      t.big = { s.big with r := c }

/-- 40_prime_testing.md R106: what holds of R after every successful GEN_PRIME, for every draw sequence. -/
def Obligations.GenPrimeResultSet : Prop :=
  ∀ s t : State, s.Inv → s.RunsFree .genPrime → exec .genPrime s = .next t → t.eng = .idle →
    t.status.error = false →
    t.big.r % 2 = 1 ∧ 2 ^ (s.bits.toNat - 1) < t.big.r ∧ t.big.r < 2 ^ s.bits.toNat ∧
    ∃ ws : List Nat, WitnessList t.big.r s.rounds.toNat ws ∧ mrw t.big.r s.rounds.toNat ws = true

/-- 40_prime_testing.md R107: with BITS = 4 and every candidate draw giving 9, GEN_PRIME never completes. -/
def Obligations.GenPrimeCanHang : Prop :=
  ∀ s : State, s.Started .genPrime → s.bits = 4 → 4 ≤ s.params.w → s.rounds ≠ 0 →
    (∀ raw ∈ s.entropy, raw % 16 = 8) →
    ∀ q, ∃ t : State, exec .genPrime (s.withQuantum q) = .next t ∧ t.busy = true

/-! ### Key generation -/

/-- 41_key_generation.md R120 to R125: given draws that deliver two distinct primes of `BITS/2` bits, each with its
witnesses, and 65537 coprime to phi, GEN_KEYS completes with the key pair they make, from some quantum on (log 1). -/
def Obligations.GenKeysBuildsTheKeyPair : Prop :=
  ∀ (s : State) (p q : Nat) (ws ws' rest : List Nat), s.Started .genKeys → 6 ≤ s.bits.toNat →
    s.bits.toNat ≤ s.params.w → s.bits.toNat % 2 = 0 → s.rounds ≠ 0 →
    Nat.Prime p → 2 ^ (s.bits.toNat / 2 - 1) < p → p < 2 ^ (s.bits.toNat / 2) →
    Nat.Prime q → 2 ^ (s.bits.toNat / 2 - 1) < q → q < 2 ^ (s.bits.toNat / 2) → p ≠ q →
    ws.length = s.rounds.toNat → ws'.length = s.rounds.toNat → s.entropy = p :: ws ++ q :: ws' ++ rest →
    Nat.gcd 65537 ((p - 1) * (q - 1)) = 1 →
    ∃ q0 d : Nat, d < (p - 1) * (q - 1) ∧ 65537 * d % ((p - 1) * (q - 1)) = 1 ∧
      ∀ k, q0 ≤ k → ∃ t : State, exec .genKeys (s.withQuantum k) = .next t ∧
        t.eng = .idle ∧ t.status = ⟨true, false, s.status.prime, s.status.overrun⟩ ∧ t.errcode = 0x00 ∧
        t.big = { s.big with p := p, q := q, n := p * q, phi := (p - 1) * (q - 1), e := 65537, d := d }

/-- 41_key_generation.md R127: what holds after every successful GEN_KEYS, for every draw sequence. -/
def Obligations.KeyPairInvariants : Prop :=
  ∀ s t : State, s.Inv → s.RunsFree .genKeys → exec .genKeys s = .next t → t.eng = .idle →
    t.status.error = false →
    t.big.p ≠ t.big.q ∧
    (t.big.p % 2 = 1 ∧ bitlen t.big.p = s.bits.toNat / 2) ∧ (t.big.q % 2 = 1 ∧ bitlen t.big.q = s.bits.toNat / 2) ∧
    t.big.n = t.big.p * t.big.q ∧ t.big.n < 2 ^ s.params.w ∧
    t.big.phi = (t.big.p - 1) * (t.big.q - 1) ∧
    Nat.gcd t.big.e t.big.phi = 1 ∧
    t.big.e * t.big.d % t.big.phi = 1 ∧
    1 ≤ t.big.d ∧ t.big.d < t.big.phi

/-- 41_key_generation.md R126: the bit length of the modulus is `BITS - 1` or `BITS`. -/
def Obligations.ModulusBitLength : Prop :=
  ∀ s t : State, s.Inv → s.RunsFree .genKeys → exec .genKeys s = .next t → t.eng = .idle →
    t.status.error = false → bitlen t.big.n = s.bits.toNat - 1 ∨ bitlen t.big.n = s.bits.toNat

/-- 41_key_generation.md R123: E is 65537 whenever that is coprime to PHI, and otherwise lies in `[2, PHI - 1]`; the
fallback happens only for BITS of at least 36. -/
def Obligations.PublicExponentChoice : Prop :=
  ∀ s t : State, s.Inv → s.RunsFree .genKeys → exec .genKeys s = .next t → t.eng = .idle →
    t.status.error = false →
    (Nat.gcd 65537 t.big.phi = 1 → t.big.e = 65537) ∧
    (t.big.e ≠ 65537 → 65537 ∣ t.big.phi ∧ 2 ≤ t.big.e ∧ t.big.e ≤ t.big.phi - 1 ∧ 36 ≤ s.bits.toNat)

/-- 41_key_generation.md R129: with BITS = 6 every successful GEN_KEYS gives the same key. -/
def Obligations.SmallestKeyIsFixed : Prop :=
  ∀ s t : State, s.Inv → s.RunsFree .genKeys → s.bits = 6 → exec .genKeys s = .next t → t.eng = .idle →
    t.status.error = false →
    ((t.big.p = 5 ∧ t.big.q = 7) ∨ (t.big.p = 7 ∧ t.big.q = 5)) ∧
    t.big.n = 35 ∧ t.big.phi = 24 ∧ t.big.e = 65537 ∧ t.big.d = 17

/-- 41_key_generation.md R128: no GEN_KEYS ends with KEYGEN_FAILURE. -/
def Obligations.KeygenFailureIsUnreachable : Prop :=
  ∀ s t : State, s.Inv → s.RunsFree .genKeys → exec .genKeys s = .next t → t.eng = .idle → t.errcode ≠ 0x06

/-- 41_key_generation.md R130: with BITS = 6 and every draw giving the candidate 5, GEN_KEYS never completes. -/
def Obligations.GenKeysCanHang : Prop :=
  ∀ s : State, s.Started .genKeys → s.bits = 6 → 6 ≤ s.params.w → s.rounds ≠ 0 →
    (∀ raw ∈ s.entropy, raw % 8 = 0) →
    ∀ q, ∃ t : State, exec .genKeys (s.withQuantum q) = .next t ∧ t.busy = true

/-- 42_modular_arithmetic.md R146: MODEXP with a key pair made of two distinct primes decrypts what it encrypted. The
register A holds the message, then the ciphertext; each engine step has room for its exponent's bits (log 1). -/
def Obligations.ModexpRoundTrip : Prop :=
  ∀ (s t : State) (p q e d m : Nat), Nat.Prime p → Nat.Prime q → p ≠ q → e * d % ((p - 1) * (q - 1)) = 1 →
    m < p * q → s.Started .modexp → t.Started .modexp →
    s.big.a = m → s.big.b = e → s.big.m = p * q → bitlen e + 1 ≤ s.quantum →
    t.big.a = m ^ e % (p * q) → t.big.b = d → t.big.m = p * q → bitlen d + 1 ≤ t.quantum →
    ∃ s' t' : State, exec .modexp s = .next s' ∧ s'.big.r = t.big.a ∧ exec .modexp t = .next t' ∧ t'.big.r = m
end

