-- ==== Sys2Proof/Laws/Arith.lean ====
section
/-! SUPPORT. The pure functions of Machine/Arith.lean say what the rules say: modular power, modular inverse, the odd
split, candidates, draws, and the words of a big number. -/

namespace Sys2Proof.Machine

theorem bitlen_zero : bitlen 0 = 0 := rfl

theorem lt_two_pow_bitlen (v : Nat) : v < 2 ^ bitlen v := by
  unfold bitlen
  split
  · simp_all
  · exact Nat.lt_log2_self

/-- Below its bit length a number has no bit left. -/
theorem div_two_pow_bitlen (v : Nat) : v / 2 ^ bitlen v = 0 :=
  Nat.div_eq_of_lt (lt_two_pow_bitlen v)

/-- One exponent bit: the exponent taken so far doubles and gains the bit. -/
theorem div_two_pow_succ (b i : Nat) : b / 2 ^ i = 2 * (b / 2 ^ (i + 1)) + (b.testBit i).toNat := by
  have h : b / 2 ^ (i + 1) = b / 2 ^ i / 2 := by rw [pow_succ, Nat.div_div_eq_div_mul]
  rw [h, Nat.testBit_eq_decide_div_mod_eq]
  rcases Nat.mod_two_eq_zero_or_one (b / 2 ^ i) with h2 | h2 <;> simp [h2] <;> omega

/-- One turn of `ModExp` keeps `r = a^(exponent bits taken) mod m` (42_modular_arithmetic.md R141). -/
theorem powStep_eq (a b m i r : Nat) (h : r = a ^ (b / 2 ^ (i + 1)) % m) :
    powStep a b m i r = a ^ (b / 2 ^ i) % m := by
  have hsq : r * r % m = a ^ (2 * (b / 2 ^ (i + 1))) % m := by
    rw [h, ← Nat.mul_mod, ← pow_add]; congr 2; omega
  rw [div_two_pow_succ b i]
  unfold powStep
  cases hb : b.testBit i
  · simp only [Bool.false_eq_true, if_false, hsq, Bool.toNat_false, Nat.add_zero]
  · simp only [if_true, hsq, Bool.toNat_true]
    rw [← Nat.mul_mod, ← pow_succ]

theorem powLoop_eq (a b m : Nat) : ∀ i r, r = a ^ (b / 2 ^ i) % m → powLoop a b m i r = a ^ b % m := by
  intro i
  induction i with
  | zero => intro r h; simpa [powLoop] using h
  | succ i ih => intro r h; exact ih _ (powStep_eq a b m i r h)

/-- `ModExp(a, b, m)` is `a^b mod m` (R141). -/
theorem modExp_eq (a b m : Nat) : modExp a b m = a ^ b % m :=
  powLoop_eq a b m _ _ (by rw [div_two_pow_bitlen, pow_zero])

/-- What extended Euclid keeps between turns, on the four values (R145). -/
def EuclidOk (a m r0 r1 : Nat) (s0 s1 : Int) : Prop :=
  Nat.gcd r0 r1 = Nat.gcd a m ∧ (m : Int) ∣ s0 * a - r0 ∧ (m : Int) ∣ s1 * a - r1

theorem euclidOk_start (a m : Nat) : EuclidOk a m m (a % m) 0 1 := by
  refine ⟨by rw [Nat.gcd_comm, ← Nat.gcd_rec, Nat.gcd_comm], by simp, ?_⟩
  rw [one_mul, Int.natCast_mod]
  exact Int.dvd_self_sub_emod

theorem euclidOk_step {a m r0 r1 : Nat} {s0 s1 : Int} (h : EuclidOk a m r0 r1 s0 s1) :
    EuclidOk a m r1 (r0 - r0 / r1 * r1) s1 (s0 - ((r0 / r1 : Nat) : Int) * s1) := by
  obtain ⟨hg, h0, h1⟩ := h
  have hr : r0 - r0 / r1 * r1 = r0 % r1 := by
    have := Nat.div_add_mod r0 r1; rw [Nat.mul_comm] at this; omega
  refine ⟨by rw [hr, Nat.gcd_comm, ← Nat.gcd_rec, Nat.gcd_comm]; exact hg, h1, ?_⟩
  have hle : r0 / r1 * r1 ≤ r0 := Nat.div_mul_le_self r0 r1
  have : (s0 - ((r0 / r1 : Nat) : Int) * s1) * a - ((r0 - r0 / r1 * r1 : Nat) : Int)
      = (s0 * a - r0) - ((r0 / r1 : Nat) : Int) * (s1 * a - r1) := by
    rw [Nat.cast_sub hle]; push_cast; ring
  rw [this]
  exact dvd_sub h0 (Dvd.dvd.mul_left h1 _)

/-- The inverse, when the loop ends: the unique `v` in `[0, m)` with `a v mod m = 1 mod m`, if the gcd is 1; else none
(R145). -/
theorem invResult_spec {a m r0 : Nat} {s0 s1 : Int} (hm : m ≠ 0) (h : EuclidOk a m r0 0 s0 s1) :
    (Nat.gcd a m = 1 → ∃ v, invResult m r0 s0 = some v ∧ v < m ∧ a * v % m = 1 % m) ∧
    (Nat.gcd a m ≠ 1 → invResult m r0 s0 = none) := by
  obtain ⟨hg, h0, -⟩ := h
  rw [Nat.gcd_zero_right] at hg
  refine ⟨fun h1 => ?_, fun h1 => by simp [invResult, hg, h1]⟩
  have hr : r0 = 1 := hg.trans h1
  have hmpos : (0 : Int) < m := by omega
  refine ⟨(s0 % (m : Int)).toNat, by simp [invResult, hr], ?_, ?_⟩
  · have := Int.emod_lt_of_pos s0 hmpos
    have := Int.emod_nonneg s0 (by omega : (m : Int) ≠ 0)
    omega
  · have hnn := Int.emod_nonneg s0 (by omega : (m : Int) ≠ 0)
    have key : ((a * (s0 % m).toNat : Nat) : Int) % m = (1 : Int) % m := by
      push_cast
      rw [Int.toNat_of_nonneg hnn, Int.mul_emod, Int.emod_emod_of_dvd _ dvd_rfl, ← Int.mul_emod]
      apply Int.ModEq.eq
      rw [hr] at h0
      have := (Int.modEq_iff_dvd.mpr (by simpa using h0) : (1 : Int) ≡ s0 * a [ZMOD m])
      rw [mul_comm]; exact this.symm
    exact_mod_cast key

theorem invLoop_spec {a m : Nat} (hm : m ≠ 0) : ∀ k r0 r1 s0 s1, r1 < k → EuclidOk a m r0 r1 s0 s1 →
    (Nat.gcd a m = 1 → ∃ v, invLoop m k r0 r1 s0 s1 = some v ∧ v < m ∧ a * v % m = 1 % m) ∧
    (Nat.gcd a m ≠ 1 → invLoop m k r0 r1 s0 s1 = none) := by
  intro k
  induction k with
  | zero => intro _ _ _ _ h; omega
  | succ k ih =>
    intro r0 r1 s0 s1 hk h
    unfold invLoop
    by_cases h1 : r1 = 0
    · subst h1; simpa using invResult_spec hm h
    · simp only [h1, if_false, invStep]
      refine ih _ _ _ _ ?_ (euclidOk_step h)
      have hlt := Nat.mod_lt r0 (Nat.pos_of_ne_zero h1)
      have := Nat.div_add_mod r0 r1
      rw [Nat.mul_comm] at this
      omega

/-- `ModInv(a, m)` (R145). -/
theorem modInv_spec {a m : Nat} (hm : m ≠ 0) :
    (Nat.gcd a m = 1 → ∃ v, modInv a m = some v ∧ v < m ∧ a * v % m = 1 % m) ∧
    (Nat.gcd a m ≠ 1 → modInv a m = none) :=
  invLoop_spec hm _ _ _ _ _ (Nat.lt_succ_self _) (euclidOk_start a m)

/-- A draw of a range is in it (00_scope.md R9). -/
theorem drawRange_mem {lo hi : Nat} (h : lo ≤ hi) (raw : Nat) :
    lo ≤ drawRange lo hi raw ∧ drawRange lo hi raw ≤ hi := by
  have := Nat.mod_lt raw (by omega : 0 < hi - lo + 1)
  unfold drawRange; omega

/-- Every value of a range is drawn by some answer (R9). -/
theorem drawRange_surjective {lo hi v : Nat} (h1 : lo ≤ v) (h2 : v ≤ hi) : drawRange lo hi (v - lo) = v := by
  have : (v - lo) % (hi - lo + 1) = v - lo := Nat.mod_eq_of_lt (by omega)
  unfold drawRange; omega

/-- The bits of a candidate (40_prime_testing.md R104). -/
theorem candidate_testBit (bits raw i : Nat) :
    (candidate bits raw).testBit i =
      (i = 0 || i = bits - 1 || (decide (i < bits) && raw.testBit i)) := by
  unfold candidate drawBits
  rw [Nat.testBit_or, Nat.testBit_or, Nat.testBit_two_pow, Nat.testBit_mod_two_pow]
  have h1 : Nat.testBit 1 i = decide (i = 0) := by
    have := Nat.testBit_two_pow (n := 0) (m := i); simp at this; simp [this, eq_comm]
  rw [h1]
  by_cases a : i = 0 <;> by_cases b : i = bits - 1 <;> simp [a, b, eq_comm]

/-- A candidate is odd, with exactly `bits` bits (R104). -/
theorem candidate_spec {bits : Nat} (h : 2 ≤ bits) (raw : Nat) :
    candidate bits raw % 2 = 1 ∧ 2 ^ (bits - 1) < candidate bits raw ∧ candidate bits raw < 2 ^ bits := by
  have hodd : candidate bits raw % 2 = 1 := by
    have := candidate_testBit bits raw 0
    rw [Nat.testBit_zero] at this
    simpa using this
  have htop : 2 ^ (bits - 1) ≤ candidate bits raw :=
    Nat.ge_two_pow_of_testBit (i := bits - 1) (by rw [candidate_testBit _ _ _]; simp)
  refine ⟨hodd, ?_, ?_⟩
  · rcases Nat.lt_or_eq_of_le htop with h1 | h1
    · exact h1
    · exfalso
      have : 2 ^ (bits - 1) % 2 = 0 := by
        rw [show bits - 1 = (bits - 2) + 1 by omega, pow_succ]; omega
      omega
  · apply Nat.lt_pow_two_of_testBit
    intro i hi
    rw [candidate_testBit _ _ _]
    simp; omega

/-- Every odd number of exactly `bits` bits above `2^(bits-1)` is the candidate of some answer, itself (R104). -/
theorem candidate_self {bits c : Nat} (h : 2 ≤ bits) (hodd : c % 2 = 1) (hlo : 2 ^ (bits - 1) < c)
    (hhi : c < 2 ^ bits) : candidate bits c = c := by
  apply Nat.eq_of_testBit_eq
  intro i
  rw [candidate_testBit _ _ _]
  have hout : ∀ j, bits ≤ j → c.testBit j = false := fun j hj =>
    Nat.testBit_lt_two_pow (lt_of_lt_of_le hhi (Nat.pow_le_pow_right (by omega) hj))
  have htop : c.testBit (bits - 1) = true := by
    rw [Nat.testBit_eq_decide_div_mod_eq]
    have h1 : c / 2 ^ (bits - 1) = 1 := by
      have : 2 ^ bits = 2 ^ (bits - 1) * 2 := by rw [← pow_succ]; congr 1; omega
      apply Nat.div_eq_of_lt_le <;> omega
    simp [h1]
  have hlow : c.testBit 0 = true := by simp [Nat.testBit_zero, hodd]
  by_cases h0 : i = 0
  · subst h0; simp [hlow]
  · by_cases h1 : i = bits - 1
    · subst h1; simp [htop]
    · by_cases h2 : i < bits
      · simp [h0, h1, h2]
      · simp [h0, h1, h2, hout i (by omega)]

/-- The split loop ends with `d` odd and keeps `d * 2^r` (R101). -/
theorem splitLoop_spec : ∀ k d r, 0 < d → d ≤ k →
    (splitLoop k d r).1 % 2 = 1 ∧ (splitLoop k d r).1 * 2 ^ (splitLoop k d r).2 = d * 2 ^ r ∧
      r ≤ (splitLoop k d r).2 := by
  intro k
  induction k with
  | zero => intro d r h1 h2; omega
  | succ k ih =>
    intro d r h1 h2
    unfold splitLoop
    by_cases hd : d % 2 = 0
    · simp only [hd, if_true]
      obtain ⟨a, b, c⟩ := ih (d / 2) (r + 1) (by omega) (by omega)
      refine ⟨a, ?_, by omega⟩
      rw [b, pow_succ]
      have : d / 2 * 2 = d := by omega
      calc d / 2 * (2 ^ r * 2) = d / 2 * 2 * 2 ^ r := by ring
        _ = d * 2 ^ r := by rw [this]
    · simp only [hd, if_false]
      exact ⟨by simpa using hd, trivial, le_refl _⟩

/-- The split with `d` odd is the only one (R101). -/
theorem odd_split_unique {d r d' r' : Nat} (h1 : d % 2 = 1) (h2 : d' % 2 = 1)
    (h : d * 2 ^ r = d' * 2 ^ r') : d = d' ∧ r = r' := by
  induction r generalizing r' with
  | zero =>
    cases r' with
    | zero => simpa using h
    | succ r' => exfalso; rw [pow_succ, pow_zero, ← Nat.mul_assoc] at h; omega
  | succ r ih =>
    cases r' with
    | zero => exfalso; rw [pow_succ, pow_zero, ← Nat.mul_assoc] at h; omega
    | succ r' =>
      have : d * 2 ^ r = d' * 2 ^ r' := by
        have h2 : d * 2 ^ r * 2 = d' * 2 ^ r' * 2 := by
          rw [pow_succ, pow_succ] at h; linarith
        omega
      obtain ⟨a, b⟩ := ih this
      exact ⟨a, by omega⟩

theorem splitOdd_spec {n : Nat} (h : 2 ≤ n) :
    (splitOdd n).1 % 2 = 1 ∧ (splitOdd n).1 * 2 ^ (splitOdd n).2 = n - 1 := by
  obtain ⟨a, b, -⟩ := splitLoop_spec (n - 1) (n - 1) 0 (by omega) (le_refl _)
  exact ⟨a, b.trans (by rw [pow_zero, Nat.mul_one])⟩

/-- An odd split of `n - 1` is `splitOdd n`. -/
theorem splitOdd_unique {n d r : Nat} (h : 2 ≤ n) (h1 : d % 2 = 1) (h2 : d * 2 ^ r = n - 1) :
    splitOdd n = (d, r) := by
  obtain ⟨a, b⟩ := splitOdd_spec h
  obtain ⟨c, e⟩ := odd_split_unique a h1 (b.trans h2.symm)
  exact Prod.ext c e

theorem bigWord_toNat (x j : Nat) : (bigWord x j).toNat = x / 2 ^ (32 * j) % 2 ^ 32 := by
  simp [bigWord, BitVec.toNat_ofNat]

/-- The three parts of a number whose word `j` was replaced: the words above, the word, the words below. -/
theorem setBigWord_parts (x j : Nat) (v : Word) :
    setBigWord x j v = (x / 2 ^ (32 * (j + 1)) * 2 ^ 32 + v.toNat) * 2 ^ (32 * j) + x % 2 ^ (32 * j) := by
  unfold setBigWord
  rw [show 32 * (j + 1) = 32 + 32 * j by ring, pow_add]
  ring

/-- A word that is written is read back, and the other words are unchanged (20_memory.md R64). -/
theorem bigWord_setBigWord (x j k : Nat) (v : Word) :
    bigWord (setBigWord x j v) k = if k = j then v else bigWord x k := by
  apply BitVec.eq_of_toNat_eq
  have hv := v.isLt
  rw [bigWord_toNat, setBigWord_parts]
  have hlow : x % 2 ^ (32 * j) < 2 ^ (32 * j) := Nat.mod_lt _ (by positivity)
  rcases Nat.lt_trichotomy k j with h | h | h
  · rw [if_neg (by omega), bigWord_toNat]
    obtain ⟨e, rfl⟩ : ∃ e, j = k + 1 + e := ⟨j - (k + 1), by omega⟩
    have hp : (2 : Nat) ^ (32 * (k + 1 + e)) = 2 ^ (32 * k) * (2 ^ 32 * 2 ^ (32 * e)) := by
      rw [← pow_add, ← pow_add]; congr 1; ring
    set A := x / 2 ^ (32 * (k + 1 + e + 1)) * 2 ^ 32 + v.toNat
    have h1 : (A * 2 ^ (32 * (k + 1 + e)) + x % 2 ^ (32 * (k + 1 + e))) / 2 ^ (32 * k)
        = A * (2 ^ 32 * 2 ^ (32 * e)) + x % 2 ^ (32 * (k + 1 + e)) / 2 ^ (32 * k) := by
      rw [hp, show A * (2 ^ (32 * k) * (2 ^ 32 * 2 ^ (32 * e))) = 2 ^ (32 * k) * (A * (2 ^ 32 * 2 ^ (32 * e))) by ring]
      rw [Nat.mul_add_div (by positivity)]
    rw [h1, show A * (2 ^ 32 * 2 ^ (32 * e)) = 2 ^ 32 * (A * 2 ^ (32 * e)) by ring, Nat.mul_add_mod]
    rw [hp, Nat.mod_mul_right_div_self, Nat.mod_mod_of_dvd _ (Dvd.intro _ rfl)]
  · subst h
    rw [if_pos rfl, Nat.mul_comm, Nat.mul_add_div (by positivity), Nat.div_eq_of_lt hlow, Nat.add_zero,
      Nat.mul_comm, Nat.mul_add_mod, Nat.mod_eq_of_lt hv]
  · rw [if_neg (by omega), bigWord_toNat]
    obtain ⟨e, rfl⟩ : ∃ e, k = j + 1 + e := ⟨k - (j + 1), by omega⟩
    have hp : (2 : Nat) ^ (32 * (j + 1 + e)) = 2 ^ (32 * j) * (2 ^ 32 * 2 ^ (32 * e)) := by
      rw [← pow_add, ← pow_add]; congr 1; ring
    have hq : (2 : Nat) ^ (32 * (j + 1)) = 2 ^ (32 * j) * 2 ^ 32 := by rw [← pow_add]; congr 1
    rw [hp, ← Nat.div_div_eq_div_mul, Nat.mul_comm _ (2 ^ (32 * j)), Nat.mul_add_div (by positivity),
      Nat.div_eq_of_lt hlow, Nat.add_zero, ← Nat.div_div_eq_div_mul, Nat.mul_comm _ (2 ^ 32),
      Nat.mul_add_div (by positivity), Nat.div_eq_of_lt hv, Nat.add_zero, hq, ← Nat.mul_assoc,
      ← Nat.div_div_eq_div_mul (x) (2 ^ (32 * j) * 2 ^ 32)]

/-- A word written below the width keeps the number below it. -/
theorem setBigWord_lt {x j w : Nat} (v : Word) (hw : 32 * (j + 1) ≤ w) (hx : x < 2 ^ w) :
    setBigWord x j v < 2 ^ w := by
  rw [setBigWord_parts]
  have hv := v.isLt
  have hlow : x % 2 ^ (32 * j) < 2 ^ (32 * j) := Nat.mod_lt _ (by positivity)
  obtain ⟨e, rfl⟩ : ∃ e, w = 32 * (j + 1) + e := ⟨w - 32 * (j + 1), by omega⟩
  have hup : x / 2 ^ (32 * (j + 1)) < 2 ^ e := by
    rw [Nat.div_lt_iff_lt_mul (by positivity), ← pow_add, Nat.add_comm e]; exact hx
  have hp : (2 : Nat) ^ (32 * (j + 1) + e) = 2 ^ e * 2 ^ 32 * 2 ^ (32 * j) := by
    rw [← pow_add, ← pow_add]; congr 1; ring
  rw [hp]
  have h1 : x / 2 ^ (32 * (j + 1)) * 2 ^ 32 + v.toNat + 1 ≤ 2 ^ e * 2 ^ 32 := by
    have : (x / 2 ^ (32 * (j + 1)) + 1) * 2 ^ 32 ≤ 2 ^ e * 2 ^ 32 := Nat.mul_le_mul_right _ hup
    omega
  calc _ < (x / 2 ^ (32 * (j + 1)) * 2 ^ 32 + v.toNat) * 2 ^ (32 * j) + 2 ^ (32 * j) := by omega
    _ = (x / 2 ^ (32 * (j + 1)) * 2 ^ 32 + v.toNat + 1) * 2 ^ (32 * j) := by ring
    _ ≤ _ := Nat.mul_le_mul_right _ h1

end Sys2Proof.Machine
end

