-- ==== Sys2Proof/Laws/Burst.lean ====
section
/-! SUPPORT. What a burst of micro-operations can do: runs of a machine, runs inside another machine, and invariants of
the working values. -/

namespace Sys2Proof.Machine

variable {σ ρ τ υ : Type}

/-- `Runs f n ds w ds' w'`: `n` micro-operations of `f` lead from working values `w` with answers `ds` on offer to `w'`
with `ds'` left. -/
inductive Runs (f : Option Nat → σ → Micro σ ρ) : Nat → List Nat → σ → List Nat → σ → Prop where
  | refl (ds : List Nat) (w : σ) : Runs f 0 ds w ds w
  | advance {n : Nat} {ds ds' : List Nat} {w w' w'' : σ} (h : f ds.head? w = .advance w')
      (rest : Runs f n ds w' ds' w'') : Runs f (n + 1) ds w ds' w''
  | consume {n : Nat} {ds ds' : List Nat} {w w' w'' : σ} (h : f ds.head? w = .consume w')
      (rest : Runs f n ds.tail w' ds' w'') : Runs f (n + 1) ds w ds' w''

variable {f : Option Nat → σ → Micro σ ρ} {g : Option Nat → τ → Micro τ υ}

theorem Runs.trans {n m : Nat} {ds ds' ds'' : List Nat} {w w' w'' : σ} (h : Runs f n ds w ds' w')
    (h' : Runs f m ds' w' ds'' w'') : Runs f (n + m) ds w ds'' w'' := by
  induction h with
  | refl => simpa using h'
  | advance h _ ih => rw [Nat.add_right_comm]; exact .advance h (ih h')
  | consume h _ ih => rw [Nat.add_right_comm]; exact .consume h (ih h')

/-- One micro-operation that needs no draw. -/
theorem Runs.one {ds : List Nat} {w w' : σ} (h : f ds.head? w = .advance w') : Runs f 1 ds w ds w' :=
  .advance h (.refl _ _)

/-- One micro-operation that uses a draw. -/
theorem Runs.draw {raw : Nat} {ds : List Nat} {w w' : σ} (h : f (some raw) w = .consume w') :
    Runs f 1 (raw :: ds) w ds w' :=
  .consume (by simpa using h) (.refl _ _)

/-- A run of a machine inside another is a run of the other. -/
theorem Runs.lift {inj : σ → τ} {k : σ → ρ → Micro τ υ}
    (hg : ∀ draw w, g draw (inj w) = (f draw w).lift inj (k w)) {n : Nat} {ds ds' : List Nat} {w w' : σ}
    (h : Runs f n ds w ds' w') : Runs g n ds (inj w) ds' (inj w') := by
  induction h with
  | refl => exact .refl _ _
  | advance h _ ih => exact .advance (by rw [hg, h]; rfl) ih
  | consume h _ ih => exact .consume (by rw [hg, h]; rfl) ih

/-- A burst goes through a run. -/
theorem burst_of_runs {n : Nat} {ds ds' : List Nat} {w w' : σ} (h : Runs f n ds w ds' w') (k : Nat) :
    burst f (n + k) ds w = burst f k ds' w' := by
  induction h with
  | refl => simp
  | advance h _ ih => rw [Nat.add_right_comm, burst, h]; exact ih
  | consume h _ ih => rw [Nat.add_right_comm, burst, h]; exact ih

/-- A burst long enough for a run and the end after it ends there. -/
theorem burst_finished {n k : Nat} {ds ds' : List Nat} {w w' : σ} {r : ρ} (h : Runs f n ds w ds' w')
    (hr : f ds'.head? w' = .finish r) (hk : n < k) : burst f k ds w = .finished r ds' := by
  obtain ⟨j, rfl⟩ : ∃ j, k = n + (j + 1) := ⟨k - n - 1, by omega⟩
  rw [burst_of_runs h, burst, hr]

/-- A burst that meets a missing draw stops there. -/
theorem burst_waits {n k : Nat} {ds ds' : List Nat} {w w' : σ} (h : Runs f n ds w ds' w')
    (hr : f ds'.head? w' = .wait) (hk : n < k) : burst f k ds w = .paused w' ds' := by
  obtain ⟨j, rfl⟩ : ∃ j, k = n + (j + 1) := ⟨k - n - 1, by omega⟩
  rw [burst_of_runs h, burst, hr]

/-- How a burst stops: after a run that used its operations up or met a missing draw, or after a run and an end. -/
theorem burst_cases (f : Option Nat → σ → Micro σ ρ) : ∀ k ds w,
    (∃ n ds' w', burst f k ds w = .paused w' ds' ∧ Runs f n ds w ds' w' ∧ (n = k ∨ f ds'.head? w' = .wait)) ∨
    (∃ n ds' w' r, burst f k ds w = .finished r ds' ∧ n < k ∧ Runs f n ds w ds' w' ∧ f ds'.head? w' = .finish r) := by
  intro k
  induction k with
  | zero => intro ds w; exact .inl ⟨0, ds, w, rfl, .refl _ _, .inl rfl⟩
  | succ k ih =>
    intro ds w
    cases hm : f ds.head? w with
    | advance w1 =>
      rcases ih ds w1 with ⟨n, ds', w', h1, h2, h3⟩ | ⟨n, ds', w', r, h1, h2, h3, h4⟩
      · exact .inl ⟨n + 1, ds', w', by rw [burst, hm]; exact h1, .advance hm h2, h3.imp (by omega) id⟩
      · exact .inr ⟨n + 1, ds', w', r, by rw [burst, hm]; exact h1, by omega, .advance hm h3, h4⟩
    | consume w1 =>
      rcases ih ds.tail w1 with ⟨n, ds', w', h1, h2, h3⟩ | ⟨n, ds', w', r, h1, h2, h3, h4⟩
      · exact .inl ⟨n + 1, ds', w', by rw [burst, hm]; exact h1, .consume hm h2, h3.imp (by omega) id⟩
      · exact .inr ⟨n + 1, ds', w', r, by rw [burst, hm]; exact h1, by omega, .consume hm h3, h4⟩
    | wait => exact .inl ⟨0, ds, w, by rw [burst, hm], .refl _ _, .inr hm⟩
    | finish r => exact .inr ⟨0, ds, w, r, by rw [burst, hm], by omega, .refl _ _, hm⟩

/-- A burst shorter than a run stops on the way. -/
theorem burst_paused {n k : Nat} {ds ds' : List Nat} {w w' : σ} (h : Runs f n ds w ds' w') (hk : k ≤ n) :
    ∃ w'' ds'', burst f k ds w = .paused w'' ds'' := by
  induction h generalizing k with
  | refl ds w => exact ⟨w, ds, by rw [Nat.le_zero.mp hk]; rfl⟩
  | advance h _ ih =>
    cases k with
    | zero => exact ⟨_, _, rfl⟩
    | succ k => rw [burst, h]; exact ih (by omega)
  | consume h _ ih =>
    cases k with
    | zero => exact ⟨_, _, rfl⟩
    | succ k => rw [burst, h]; exact ih (by omega)

/-- Where a machine gets to from `w` with the answers `ds`: `some (r, rest)`, it ends with `r` and leaves `rest`;
`none`, it comes to want a draw that is not there. -/
def Settles (f : Option Nat → σ → Micro σ ρ) (ds : List Nat) (w : σ) : Option (ρ × List Nat) → Prop
  | some (r, rest) => ∃ n w', Runs f n ds w rest w' ∧ f rest.head? w' = .finish r
  | none => ∃ n ds' w', Runs f n ds w ds' w' ∧ f ds'.head? w' = .wait

theorem Settles.of_runs {n : Nat} {ds ds' : List Nat} {w w' : σ} {o : Option (ρ × List Nat)}
    (h : Runs f n ds w ds' w') (h' : Settles f ds' w' o) : Settles f ds w o := by
  match o, h' with
  | some (r, rest), ⟨m, w2, h2, h3⟩ => exact ⟨n + m, w2, h.trans h2, h3⟩
  | none, ⟨m, ds2, w2, h2, h3⟩ => exact ⟨n + m, ds2, w2, h.trans h2, h3⟩

/-- A machine inside another: where the other gets to. -/
theorem Settles.lift {inj : σ → τ} {k : σ → ρ → Micro τ υ}
    (hg : ∀ draw w, g draw (inj w) = (f draw w).lift inj (k w)) {ds : List Nat} {w : σ}
    {o : Option (ρ × List Nat)} {o' : Option (υ × List Nat)} (h : Settles f ds w o)
    (hend : ∀ n w' r rest, Runs f n ds w rest w' → o = some (r, rest) →
      match k w' r with
      | .finish u => o' = some (u, rest)
      | .advance v => Settles g rest v o'
      | .consume _ => False
      | .wait => False)
    (hnone : o = none → o' = none) : Settles g ds (inj w) o' := by
  match o, h with
  | some (r, rest), ⟨n, w', h1, h2⟩ =>
    have he := hend n w' r rest h1 rfl
    have hstep : g rest.head? (inj w') = k w' r := by rw [hg, h2]; rfl
    cases hk : k w' r with
    | finish u =>
      rw [hk] at he hstep
      subst he
      exact ⟨n, inj w', h1.lift hg, hstep⟩
    | advance v =>
      rw [hk] at he hstep
      exact .of_runs ((h1.lift hg).trans (.one hstep)) he
    | consume v => rw [hk] at he; exact he.elim
    | wait => rw [hk] at he; exact he.elim
  | none, ⟨n, ds', w', h1, h2⟩ =>
    rw [hnone rfl]
    exact ⟨n, ds', inj w', h1.lift hg, by rw [hg, h2]; rfl⟩

/-- Where a machine ends, every burst that is long enough ends there, and no other end is possible. -/
theorem Settles.burst_some {ds rest : List Nat} {w : σ} {r : ρ} (h : Settles f ds w (some (r, rest))) :
    ∃ n, (∀ k, n < k → burst f k ds w = .finished r rest) ∧
      ∀ k, k ≤ n → ∃ w' ds', burst f k ds w = .paused w' ds' := by
  obtain ⟨n, w', h1, h2⟩ := h
  exact ⟨n, fun k hk => burst_finished h1 h2 hk, fun k hk => burst_paused h1 hk⟩

/-- Where a machine comes to want a draw, every burst pauses. -/
theorem Settles.burst_none {ds : List Nat} {w : σ} (h : Settles f ds w none) (k : Nat) :
    ∃ w' ds', burst f k ds w = .paused w' ds' := by
  obtain ⟨n, ds', w', h1, h2⟩ := h
  by_cases hk : k ≤ n
  · exact burst_paused h1 hk
  · exact ⟨w', ds', burst_waits h1 h2 (by omega)⟩

/-- An invariant of the working values is kept by a run. -/
theorem Runs.keeps {P : σ → Prop}
    (hf : ∀ draw w, P w → ∀ w', (f draw w = .advance w' ∨ f draw w = .consume w') → P w')
    {n : Nat} {ds ds' : List Nat} {w w' : σ} (h : Runs f n ds w ds' w') (hw : P w) : P w' := by
  induction h with
  | refl => exact hw
  | advance h _ ih => exact ih (hf _ _ hw _ (.inl h))
  | consume h _ ih => exact ih (hf _ _ hw _ (.inr h))

/-- What a micro-operation makes of an invariant `P` of the working values and a property `Q` of the end. -/
def Micro.Keeps (m : Micro σ ρ) (P : σ → Prop) (Q : ρ → Prop) : Prop :=
  match m with
  | .advance w => P w
  | .consume w => P w
  | .wait => True
  | .finish r => Q r

/-- A machine inside another keeps what the other needs, if it keeps its own. -/
theorem Micro.Keeps.lift {m : Micro σ ρ} {P : σ → Prop} {Q : ρ → Prop} (h : m.Keeps P Q) {inj : σ → τ}
    {k : ρ → Micro τ υ} {P' : τ → Prop} {Q' : υ → Prop} (hP : ∀ w, P w → P' (inj w))
    (hQ : ∀ r, Q r → (k r).Keeps P' Q') : (m.lift inj k).Keeps P' Q' := by
  cases m <;> first | exact hP _ h | exact hQ _ h | trivial

/-- If every micro-operation keeps an invariant, a burst leaves working values that have it, or an end with `Q`. -/
theorem burst_keeps {P : σ → Prop} {Q : ρ → Prop} (hf : ∀ draw w, P w → (f draw w).Keeps P Q) {w : σ} (hw : P w)
    (k : Nat) (ds : List Nat) :
    (∃ w' ds', burst f k ds w = .paused w' ds' ∧ P w') ∨ (∃ r ds', burst f k ds w = .finished r ds' ∧ Q r) := by
  have keep : ∀ draw w, P w → ∀ w', (f draw w = .advance w' ∨ f draw w = .consume w') → P w' := by
    intro draw w hw w' h
    have := hf draw w hw
    rcases h with h | h <;> rw [h] at this <;> exact this
  rcases burst_cases f k ds w with ⟨n, ds', w', h1, h2, -⟩ | ⟨n, ds', w', r, h1, -, h3, h4⟩
  · exact .inl ⟨w', ds', h1, h2.keeps keep hw⟩
  · refine .inr ⟨r, ds', h1, ?_⟩
    have := hf ds'.head? w' (h3.keeps keep hw)
    rw [h4] at this
    exact this

end Sys2Proof.Machine
end

