-- ==== Sys2Proof/Laws/Settles.lean ====
section
/-! SUPPORT. Each machine of micro-operations gets to where the pseudocode in one piece gets to
(Machine/Reference.lean). -/

namespace Sys2Proof.Machine

theorem pow_runs (a b m : Nat) (ds : List Nat) : ∀ i r,
    Runs (fun _ => powMicro a b m) i ds ⟨i, r⟩ ds ⟨0, powLoop a b m i r⟩ := by
  intro i
  induction i with
  | zero => intro r; exact .refl _ _
  | succ i ih => intro r; exact .advance (w' := ⟨i, powStep a b m i r⟩) rfl (ih _)

/-- `ModExp` (42_modular_arithmetic.md R141). -/
theorem pow_settles (a b m : Nat) (ds : List Nat) :
    Settles (fun _ => powMicro a b m) ds (powStart b m) (some (modExp a b m, ds)) :=
  ⟨_, _, pow_runs a b m ds _ _, rfl⟩

theorem gcd_runs (ds : List Nat) : ∀ k x y, y ≤ k →
    ∃ n, n ≤ y ∧ Runs (fun _ => gcdMicro) n ds (x, y) ds (gcd x y, 0) := by
  intro k
  induction k with
  | zero =>
    intro x y h
    obtain rfl : y = 0 := by omega
    exact ⟨0, le_refl _, by simpa [gcd] using Runs.refl (f := fun _ => gcdMicro) ds (x, 0)⟩
  | succ k ih =>
    intro x y h
    by_cases hy : y = 0
    · subst hy; exact ⟨0, le_refl _, by simpa [gcd] using Runs.refl (f := fun _ => gcdMicro) ds (x, 0)⟩
    · have hlt := Nat.mod_lt x (Nat.pos_of_ne_zero hy)
      obtain ⟨n, hn, hr⟩ := ih y (x % y) (by omega)
      refine ⟨n + 1, by omega, .advance (w' := (y, x % y)) (by simp [gcdMicro, hy]) ?_⟩
      have : gcd y (x % y) = gcd x y := by unfold gcd; rw [Nat.gcd_comm y, ← Nat.gcd_rec, Nat.gcd_comm]
      rwa [this] at hr

/-- `Gcd` (R143). -/
theorem gcd_settles (x y : Nat) (ds : List Nat) :
    Settles (fun _ => gcdMicro) ds (x, y) (some (gcd x y, ds)) := by
  obtain ⟨n, -, h⟩ := gcd_runs ds y x y (le_refl _)
  exact ⟨n, _, h, by simp [gcdMicro]⟩

theorem inv_runs (m : Nat) (ds : List Nat) : ∀ k r0 r1 s0 s1, r1 < k →
    ∃ n v, n ≤ r1 ∧ Runs (fun _ => invMicro m) n ds ⟨r0, r1, s0, s1⟩ ds v ∧
      invMicro m v = .finish (invLoop m k r0 r1 s0 s1) := by
  intro k
  induction k with
  | zero => intro _ _ _ _ h; omega
  | succ k ih =>
    intro r0 r1 s0 s1 h
    by_cases h1 : r1 = 0
    · subst h1; exact ⟨0, _, le_refl _, .refl _ _, by simp [invMicro, invLoop]⟩
    · have hlt := Nat.mod_lt r0 (Nat.pos_of_ne_zero h1)
      have hr : r0 - r0 / r1 * r1 = r0 % r1 := by
        have := Nat.div_add_mod r0 r1; rw [Nat.mul_comm] at this; omega
      obtain ⟨n, v, hn, hv, hf⟩ :=
        ih r1 (r0 - r0 / r1 * r1) s1 (s0 - ((r0 / r1 : Nat) : Int) * s1) (by omega)
      refine ⟨n + 1, v, by omega, .advance ?_ hv, ?_⟩
      · simp [invMicro, h1, invStep]
      · rw [hf]; simp [invLoop, h1, invStep]

/-- `ModInv` (R145). -/
theorem inv_settles (a m : Nat) (ds : List Nat) :
    Settles (fun _ => invMicro m) ds (invStart a m) (some (modInv a m, ds)) := by
  obtain ⟨n, v, -, h1, h2⟩ := inv_runs m ds (a % m + 1) m (a % m) 0 1 (by omega)
  exact ⟨n, v, h1, h2⟩

theorem split_runs (t n : Nat) (ds : List Nat) : ∀ k d r, 0 < d → d ≤ k →
    ∃ j, Runs (mrMicro t) j ds (.split n d r) ds
      (.witness ⟨n, (splitLoop k d r).1, (splitLoop k d r).2, 0⟩) := by
  intro k
  induction k with
  | zero => intro d r h1 h2; omega
  | succ k ih =>
    intro d r h1 h2
    by_cases hd : d % 2 = 0
    · obtain ⟨j, hj⟩ := ih (d / 2) (r + 1) (by omega) (by omega)
      refine ⟨j + 1, .advance (w' := .split n (d / 2) (r + 1)) (by simp [mrMicro, hd]) ?_⟩
      simpa [splitLoop, hd] using hj
    · exact ⟨1, .one (by simp [mrMicro, splitLoop, hd])⟩

theorem square_runs (t : Nat) (c : MrCand) (ds : List Nat) : ∀ j x,
    ∃ k, if squareLoop c.n j x then
        Runs (mrMicro t) k ds (.square c x j) ds (.witness { c with i := c.i + 1 })
      else ∃ x', Runs (mrMicro t) k ds (.square c x j) ds (.square c x' 0) := by
  intro j
  induction j with
  | zero => intro x; exact ⟨0, by simp only [squareLoop]; exact ⟨x, .refl _ _⟩⟩
  | succ j ih =>
    intro x
    by_cases hy : modExp x 2 c.n = c.n - 1
    · refine ⟨1, ?_⟩
      have : squareLoop c.n (j + 1) x = true := by simp [squareLoop, hy]
      rw [this, if_pos rfl]
      exact .one (by simp [mrMicro, hy])
    · obtain ⟨k, hk⟩ := ih (modExp x 2 c.n)
      have hs : squareLoop c.n (j + 1) x = squareLoop c.n j (modExp x 2 c.n) := by simp [squareLoop, hy]
      have hm : mrMicro t ds.head? (.square c x (j + 1)) = .advance (.square c (modExp x 2 c.n) j) := by
        simp [mrMicro, hy]
      refine ⟨k + 1, ?_⟩
      rw [hs]
      split at hk
      · rename_i h; rw [if_pos h]; exact .advance hm hk
      · rename_i h
        rw [if_neg h]
        obtain ⟨x', hx⟩ := hk
        exact ⟨x', .advance hm hx⟩

theorem round_runs (t : Nat) (c : MrCand) (raw : Nat) (ds : List Nat) (h : c.i < t) :
    ∃ k, if roundAccepts c.n c.d c.r (drawRange 2 (c.n - 2) raw) then
        Runs (mrMicro t) k (raw :: ds) (.witness c) ds (.witness { c with i := c.i + 1 })
      else ∃ x, Runs (mrMicro t) k (raw :: ds) (.witness c) ds (.square c x 0) := by
  have h1 : Runs (mrMicro t) 1 (raw :: ds) (.witness c) ds
      (MrWork.power c (drawRange 2 (c.n - 2) raw) (powStart c.d c.n)) := .draw (by simp [mrMicro, h])
  generalize drawRange 2 (c.n - 2) raw = a at h1 ⊢
  have h2 := (pow_runs a c.d c.n ds (bitlen c.d) (1 % c.n)).lift (g := mrMicro t) (inj := MrWork.power c a)
    (k := fun _ x => if x = 1 ∨ x = c.n - 1 then .advance (.witness { c with i := c.i + 1 })
      else .advance (.square c x (c.r - 1))) (fun _ _ => rfl)
  have h12 := h1.trans h2
  change Runs _ _ _ _ _ (MrWork.power c a ⟨0, modExp a c.d c.n⟩) at h12
  by_cases hx : modExp a c.d c.n = 1 ∨ modExp a c.d c.n = c.n - 1
  · have ha : roundAccepts c.n c.d c.r a = true := by rcases hx with hx | hx <;> simp [roundAccepts, hx]
    refine ⟨1 + bitlen c.d + 1, ?_⟩
    rw [if_pos ha]
    refine h12.trans (Runs.one ?_)
    simp [mrMicro, powMicro, Micro.lift, hx]
  · have ha : roundAccepts c.n c.d c.r a = squareLoop c.n (c.r - 1) (modExp a c.d c.n) := by
      rw [not_or] at hx; simp [roundAccepts, hx]
    obtain ⟨k, hk⟩ := square_runs t c ds (c.r - 1) (modExp a c.d c.n)
    have h3 := h12.trans (.one (w' := .square c (modExp a c.d c.n) (c.r - 1))
      (by simp [mrMicro, powMicro, Micro.lift, hx]))
    refine ⟨1 + bitlen c.d + 1 + k, ?_⟩
    rw [ha]
    split at hk
    · rename_i h; rw [if_pos h]; exact h3.trans hk
    · rename_i h; rw [if_neg h]; obtain ⟨x, hx⟩ := hk; exact ⟨x, h3.trans hx⟩

theorem rounds_settle (t n d r : Nat) : ∀ k i ds, i + k = t →
    Settles (mrMicro t) ds (.witness ⟨n, d, r, i⟩) (mrRounds n d r k ds) := by
  intro k
  induction k with
  | zero =>
    intro i ds h
    exact ⟨0, _, .refl _ _, by simp [mrMicro]; omega⟩
  | succ k ih =>
    intro i ds h
    cases ds with
    | nil => exact ⟨0, [], _, .refl _ _, by simp [mrMicro]; omega⟩
    | cons raw ds =>
      obtain ⟨j, hj⟩ := round_runs t ⟨n, d, r, i⟩ raw ds (by simp; omega)
      unfold mrRounds
      split at hj
      · rename_i ha; rw [if_pos ha]
        exact .of_runs hj (ih (i + 1) ds (by omega))
      · rename_i ha; rw [if_neg ha]
        obtain ⟨x, hx⟩ := hj
        exact ⟨j, _, hx, rfl⟩

/-- `MillerRabin(n, t)` (40_prime_testing.md R101). -/
theorem mr_settles (n t : Nat) (ds : List Nat) :
    Settles (mrMicro t) ds (.check n) (millerRabin n t ds) := by
  unfold millerRabin
  by_cases h1 : n ≤ 1
  · rw [if_pos h1]; exact ⟨0, _, .refl _ _, by simp [mrMicro, h1]⟩
  rw [if_neg h1]
  by_cases h2 : n = 2 ∨ n = 3
  · rw [if_pos h2]; exact ⟨0, _, .refl _ _, by simp [mrMicro, h1, h2]⟩
  rw [if_neg h2]
  by_cases h3 : n % 2 = 0
  · rw [if_pos h3]; exact ⟨0, _, .refl _ _, by simp [mrMicro, h1, h2, h3]⟩
  rw [if_neg h3]
  obtain ⟨j, hj⟩ := split_runs t n ds (n - 1) (n - 1) 0 (by omega) (le_refl _)
  have h0 : Runs (mrMicro t) 1 ds (.check n) ds (.split n (n - 1) 0) := .one (by simp [mrMicro, h1, h2, h3])
  exact .of_runs (h0.trans hj) (rounds_settle t n _ _ t 0 ds (by omega))

/-- The number under test does not change. -/
theorem mr_runs_n {t k : Nat} {ds ds' : List Nat} {m m' : MrWork} (h : Runs (mrMicro t) k ds m ds' m') :
    m'.n = m.n := by
  refine h.keeps (P := fun w => w.n = m.n) ?_ rfl
  intro draw w hw w' hm
  rw [← hw]
  cases w with
  | check n => simp only [mrMicro] at hm; split_ifs at hm <;> simp at hm; subst hm; rfl
  | split n d r => simp only [mrMicro] at hm; split_ifs at hm <;> simp at hm <;> subst hm <;> rfl
  | witness c =>
    simp only [mrMicro] at hm
    split_ifs at hm
    · simp at hm
    · cases draw <;> simp at hm; subst hm; rfl
  | power c a p =>
    simp only [mrMicro, powMicro] at hm
    cases p with
    | mk i r =>
      cases i with
      | zero => simp only [Micro.lift] at hm; split_ifs at hm <;> simp at hm <;> subst hm <;> rfl
      | succ i => simp only [Micro.lift] at hm; simp at hm; subst hm; rfl
  | square c x j =>
    cases j with
    | zero => simp [mrMicro] at hm
    | succ j => simp only [mrMicro] at hm; split_ifs at hm <;> simp at hm <;> subst hm <;> rfl

/-- The rounds use answers up. -/
theorem mrRounds_rest_length (n d r : Nat) : ∀ t ds v rest, mrRounds n d r t ds = some (v, rest) →
    rest.length ≤ ds.length := by
  intro t
  induction t with
  | zero => intro ds v rest h; simp [mrRounds] at h; rw [h.2]
  | succ t ih =>
    intro ds v rest h
    cases ds with
    | nil => simp [mrRounds] at h
    | cons raw ds =>
      simp only [mrRounds] at h
      split_ifs at h
      · have := ih _ _ _ h; simp; omega
      · simp at h; rw [← h.2]; simp

/-- The test uses answers up. -/
theorem millerRabin_rest_length {n t : Nat} {ds rest : List Nat} {v : Bool}
    (h : millerRabin n t ds = some (v, rest)) : rest.length ≤ ds.length := by
  unfold millerRabin at h
  split_ifs at h <;> first | (simp at h; rw [h.2]) | exact mrRounds_rest_length _ _ _ _ _ _ _ h

/-- `PrimeLoop(bits, t)` (R105, 41_key_generation.md R121). -/
theorem gen_settles (bits t : Nat) : ∀ k ds, ds.length ≤ k →
    Settles (genMicro bits t) ds .draw (primeLoop bits t k ds) := by
  intro k
  induction k with
  | zero =>
    intro ds h
    obtain rfl : ds = [] := List.length_eq_zero_iff.mp (by omega)
    exact ⟨0, [], _, .refl _ _, rfl⟩
  | succ k ih =>
    intro ds h
    cases ds with
    | nil => exact ⟨0, [], _, .refl _ _, rfl⟩
    | cons raw ds =>
      have h0 : Runs (genMicro bits t) 1 (raw :: ds) .draw ds (.test (.check (candidate bits raw))) := .draw rfl
      refine .of_runs h0 ((mr_settles (candidate bits raw) t ds).lift (inj := GenWork.test)
        (k := fun m v => if v then .finish m.n else .advance GenWork.draw) (fun _ _ => rfl) ?_ ?_)
      · intro n w' v rest hr ho
        have hn := mr_runs_n hr
        cases v with
        | true =>
          rw [show w'.n = candidate bits raw from hn]
          simp [primeLoop, ho]
        | false =>
          have := millerRabin_rest_length ho
          simp only [primeLoop, ho]
          exact ih rest (by simp at h; omega)
      · intro ho; simp [primeLoop, ho]

theorem primeLoop_rest_length (bits t : Nat) : ∀ k ds c rest, primeLoop bits t k ds = some (c, rest) →
    rest.length < ds.length := by
  intro k
  induction k with
  | zero => intro ds c rest h; simp [primeLoop] at h
  | succ k ih =>
    intro ds c rest h
    cases ds with
    | nil => simp [primeLoop] at h
    | cons raw ds =>
      simp only [primeLoop] at h
      cases hm : millerRabin (candidate bits raw) t ds with
      | none => simp [hm] at h
      | some vr =>
        obtain ⟨v, r1⟩ := vr
        have hl := millerRabin_rest_length hm
        cases v with
        | true => simp [hm] at h; rw [← h.2]; simp; omega
        | false => simp only [hm] at h; have := ih _ _ _ h; simp; omega

/-- `ChooseE(phi)` and the inverse, from the trial `e` on (R123, R124). -/
theorem choose_settles (h t p q : Nat) : ∀ ds e,
    Settles (keysMicro h t) ds (.coprime p q e e (phiOf p q)) (keyPairOf p q e ds) := by
  have hinv : ∀ ds e, Settles (keysMicro h t) ds (.inverse p q e (invStart e (phiOf p q)))
      (some (keyEnding p q e, ds)) := by
    intro ds e
    refine (inv_settles e (phiOf p q) ds).lift (inj := KeysWork.inverse p q e)
      (k := fun _ => fun
        | some d => .finish (Ending.success (.keyPair p q (p * q) (phiOf p q) e d))
        | none => .finish (Ending.failure .keygenFailure)) (fun _ _ => rfl) ?_ (by simp)
    intro n w' r rest _ ho
    simp only [Option.some.injEq, Prod.mk.injEq] at ho
    obtain ⟨rfl, rfl⟩ := ho
    unfold keyEnding
    cases modInv e (phiOf p q) <;> rfl
  have hg : ∀ ds e o', (gcd e (phiOf p q) = 1 → Settles (keysMicro h t) ds (.inverse p q e (invStart e (phiOf p q))) o') →
      (gcd e (phiOf p q) ≠ 1 → Settles (keysMicro h t) ds (.redrawE p q) o') →
      Settles (keysMicro h t) ds (.coprime p q e e (phiOf p q)) o' := by
    intro ds e o' h1 h2
    refine (gcd_settles e (phiOf p q) ds).lift (inj := fun xy => KeysWork.coprime p q e xy.1 xy.2)
      (g := keysMicro h t)
      (k := fun _ g => if g = 1 then .advance (KeysWork.inverse p q e (invStart e (phiOf p q)))
        else .advance (KeysWork.redrawE p q)) (fun _ _ => rfl) ?_ (by simp)
    intro n w' r rest _ ho
    simp only [Option.some.injEq, Prod.mk.injEq] at ho
    obtain ⟨rfl, rfl⟩ := ho
    by_cases hc : gcd e (phiOf p q) = 1
    · simp only [hc, if_true]; exact h1 hc
    · simp only [hc, if_false]; exact h2 hc
  intro ds
  induction ds with
  | nil =>
    intro e
    refine hg _ _ _ (fun hc => ?_) (fun hc => ?_)
    · simpa [keyPairOf, chooseE, hc] using hinv [] e
    · simp only [keyPairOf, chooseE, hc, if_false]; exact ⟨0, [], _, .refl _ _, rfl⟩
  | cons raw ds ih =>
    intro e
    refine hg _ _ _ (fun hc => ?_) (fun hc => ?_)
    · simpa [keyPairOf, chooseE, hc] using hinv _ e
    · refine .of_runs (.draw rfl) ?_
      simpa [keyPairOf, chooseE, hc] using ih (drawRange 2 (phiOf p q - 1) raw)

/-- `DistinctPrime(h, t, p)` (R122) and what follows. -/
theorem distinct_settles (h t p : Nat) : ∀ k ds, ds.length ≤ k →
    Settles (keysMicro h t) ds (.primeQ p .draw)
      ((distinctPrime h t p k ds).bind fun (q, rest) => keyPairOf p q Config.e0 rest) := by
  intro k
  induction k with
  | zero =>
    intro ds hk
    obtain rfl : ds = [] := List.length_eq_zero_iff.mp (by omega)
    exact ⟨0, [], _, .refl _ _, rfl⟩
  | succ k ih =>
    intro ds hk
    refine (gen_settles h t ds.length ds (le_refl _)).lift (inj := KeysWork.primeQ p)
      (k := fun _ q => if q = p then .advance (KeysWork.primeQ p .draw)
        else .advance (KeysWork.coprime p q Config.e0 Config.e0 (phiOf p q))) (fun _ _ => rfl) ?_ ?_
    · intro n w' q rest hr hp
      have hl := primeLoop_rest_length _ _ _ _ _ _ hp
      by_cases hq : q = p
      · simp only [hq, if_true]
        simpa [distinctPrime, hp, hq] using ih rest (by omega)
      · simp only [hq, if_false]
        simpa [distinctPrime, hp, hq] using choose_settles h t p q rest Config.e0
    · intro hp; simp [distinctPrime, hp]

/-- GEN_KEYS after its checks (R120). -/
theorem keys_settles (h t : Nat) (ds : List Nat) :
    Settles (keysMicro h t) ds (.primeP .draw) (keyPair h t ds) := by
  refine (gen_settles h t ds.length ds (le_refl _)).lift (inj := KeysWork.primeP)
    (k := fun _ p => .advance (KeysWork.primeQ p .draw)) (fun _ _ => rfl) ?_ ?_
  · intro n w' p rest _ hp
    simpa [keyPair, hp] using distinct_settles h t p rest.length rest (le_refl _)
  · intro hp; simp [keyPair, hp]

/-- The machine of a command. -/
def commandMicro : Instr → Operands → Option Nat → Work → Micro Work Ending
  | .nop => nopMicro
  | .isPrime => isPrimeMicro
  | .genPrime => genPrimeMicro
  | .genKeys => genKeysMicro
  | .modexp => modexpMicro
  | .gcd => gcdCommandMicro
  | .modinv => modinvMicro
  | .zeroize => zeroizeMicro

/-- Each command gets from its start to where the pseudocode in one piece gets to. -/
theorem command_settles (i : Instr) (o : Operands) (ds : List Nat) :
    Settles (commandMicro i o) ds .start (ending i o ds) := by
  cases i with
  | nop => exact ⟨0, _, .refl _ _, rfl⟩
  | zeroize => exact ⟨0, _, .refl _ _, rfl⟩
  | isPrime =>
    simp only [ending]
    by_cases ht : o.t = 0
    · rw [if_pos ht]; exact ⟨0, _, .refl _ _, by simp [commandMicro, isPrimeMicro, ht]⟩
    rw [if_neg ht]
    refine .of_runs (.one (w' := .test (.check o.a)) (by simp [commandMicro, isPrimeMicro, ht])) ?_
    refine (mr_settles o.a o.t ds).lift (inj := Work.test) (k := fun _ v => .finish (Ending.success (.verdict v)))
      (fun _ _ => rfl) ?_ ?_
    · intro n w' v rest _ ho; simp [ho]
    · intro ho; simp [ho]
  | genPrime =>
    simp only [ending]
    by_cases hb : o.bits < 2 ∨ o.w < o.bits
    · rw [if_pos hb]; exact ⟨0, _, .refl _ _, by simp only [commandMicro, genPrimeMicro, if_pos hb]⟩
    rw [if_neg hb]
    by_cases ht : o.t = 0
    · rw [if_pos ht]; exact ⟨0, _, .refl _ _, by simp only [commandMicro, genPrimeMicro, if_neg hb, if_pos ht]⟩
    rw [if_neg ht]
    refine .of_runs (.one (w' := .gen .draw) (by simp only [commandMicro, genPrimeMicro, if_neg hb, if_neg ht])) ?_
    refine (gen_settles o.bits o.t _ ds (le_refl _)).lift (inj := Work.gen)
      (k := fun _ c => .finish (Ending.success (.result c))) (fun _ _ => rfl) ?_ ?_
    · intro n w' v rest _ ho; simp [ho]
    · intro ho; simp [ho]
  | genKeys =>
    simp only [ending]
    by_cases hb : o.bits < 6 ∨ o.w < o.bits ∨ o.bits % 2 = 1
    · rw [if_pos hb]; exact ⟨0, _, .refl _ _, by simp only [commandMicro, genKeysMicro, if_pos hb]⟩
    rw [if_neg hb]
    by_cases ht : o.t = 0
    · rw [if_pos ht]; exact ⟨0, _, .refl _ _, by simp only [commandMicro, genKeysMicro, if_neg hb, if_pos ht]⟩
    rw [if_neg ht]
    refine .of_runs (.one (w' := .keys (.primeP .draw)) (by simp only [commandMicro, genKeysMicro, if_neg hb, if_neg ht])) ?_
    refine (keys_settles (o.bits / 2) o.t ds).lift (inj := Work.keys) (k := fun _ e => .finish e)
      (fun _ _ => rfl) ?_ (fun ho => ho)
    intro n w' v rest _ ho; exact ho
  | modexp =>
    simp only [ending]
    by_cases hm : o.m = 0
    · rw [if_pos hm]; exact ⟨0, _, .refl _ _, by simp [commandMicro, modexpMicro, hm]⟩
    rw [if_neg hm]
    refine .of_runs (.one (w' := .power (powStart o.b o.m)) (by simp [commandMicro, modexpMicro, hm])) ?_
    refine (pow_settles o.a o.b o.m ds).lift (inj := Work.power) (k := fun _ v => .finish (Ending.success (.result v)))
      (fun _ _ => rfl) ?_ (by simp)
    intro n w' v rest _ ho
    simp only [Option.some.injEq, Prod.mk.injEq] at ho
    simp [ho.1, ho.2]
  | gcd =>
    simp only [ending]
    refine .of_runs (.one (w' := .euclid o.a o.b) (by simp [commandMicro, gcdCommandMicro])) ?_
    refine (gcd_settles o.a o.b ds).lift (inj := fun xy => Work.euclid xy.1 xy.2)
      (g := commandMicro .gcd o) (k := fun _ v => .finish (Ending.success (.result v))) (fun _ _ => rfl) ?_ (by simp)
    intro n w' v rest _ ho
    simp only [Option.some.injEq, Prod.mk.injEq] at ho
    simp [ho.1, ho.2]
  | modinv =>
    simp only [ending]
    by_cases hm : o.m = 0
    · rw [if_pos hm]; exact ⟨0, _, .refl _ _, by simp [commandMicro, modinvMicro, hm]⟩
    rw [if_neg hm]
    refine .of_runs (.one (w' := .inverse (invStart o.a o.m)) (by simp [commandMicro, modinvMicro, hm])) ?_
    refine (inv_settles o.a o.m ds).lift (inj := Work.inverse)
      (k := fun _ => fun
        | some d => .finish (Ending.success (.result d))
        | none => .finish (Ending.failure .noInverse)) (fun _ _ => rfl) ?_ (by simp)
    intro n w' v rest _ ho
    simp only [Option.some.injEq, Prod.mk.injEq] at ho
    obtain ⟨rfl, rfl⟩ := ho
    cases modInv o.a o.m <;> rfl

end Sys2Proof.Machine
end

