-- ==== Sys2Proof/Laws/State.lean ====
section
/-! SUPPORT. One lemma for each field of the state and each named update of it, and the laws of the register file. -/

namespace Sys2Proof.Machine

variable (s : State)

/-- A write of one big-number register is read back and leaves the other nine (10_state.md R30: none aliases). -/
theorem BigRegs.get_set (b : BigRegs) (x y : BigReg) (v : Nat) :
    (b.set x v).get y = if y = x then v else b.get y := by
  cases x <;> cases y <;> rfl

/-- Two register files that read the same are the same. -/
theorem BigRegs.ext_get {b c : BigRegs} (h : ∀ x, b.get x = c.get x) : b = c := by
  cases b; cases c
  have := h .a; have := h .b; have := h .m; have := h .r; have := h .p
  have := h .q; have := h .n; have := h .phi; have := h .e; have := h .d
  simp_all [BigRegs.get]

@[simp] theorem BigRegs.get_zero (x : BigReg) : BigRegs.zero.get x = 0 := by cases x <;> rfl


@[simp] theorem State.setBig_params (x : BigReg) (v : Nat) : (s.setBig x v).params = s.params := rfl
@[simp] theorem State.setBig_eng (x : BigReg) (v : Nat) : (s.setBig x v).eng = s.eng := rfl
@[simp] theorem State.setBig_irqEn (x : BigReg) (v : Nat) : (s.setBig x v).irqEn = s.irqEn := rfl
@[simp] theorem State.setBig_status (x : BigReg) (v : Nat) : (s.setBig x v).status = s.status := rfl
@[simp] theorem State.setBig_cmd (x : BigReg) (v : Nat) : (s.setBig x v).cmd = s.cmd := rfl
@[simp] theorem State.setBig_bits (x : BigReg) (v : Nat) : (s.setBig x v).bits = s.bits := rfl
@[simp] theorem State.setBig_rounds (x : BigReg) (v : Nat) : (s.setBig x v).rounds = s.rounds := rfl
@[simp] theorem State.setBig_errcode (x : BigReg) (v : Nat) : (s.setBig x v).errcode = s.errcode := rfl
@[simp] theorem State.setBig_big (x : BigReg) (v : Nat) : (s.setBig x v).big = s.big.set x v := rfl
@[simp] theorem State.setBig_abortPending (x : BigReg) (v : Nat) : (s.setBig x v).abortPending = s.abortPending := rfl
@[simp] theorem State.setBig_draws (x : BigReg) (v : Nat) : (s.setBig x v).draws = s.draws := rfl
@[simp] theorem State.setBig_entropy (x : BigReg) (v : Nat) : (s.setBig x v).entropy = s.entropy := rfl
@[simp] theorem State.setBig_quantum (x : BigReg) (v : Nat) : (s.setBig x v).quantum = s.quantum := rfl
@[simp] theorem State.setBig_response (x : BigReg) (v : Nat) : (s.setBig x v).response = s.response := rfl
@[simp] theorem State.setBig_inputs (x : BigReg) (v : Nat) : (s.setBig x v).inputs = s.inputs := rfl
@[simp] theorem State.setBig_freeEvents (x : BigReg) (v : Nat) : (s.setBig x v).freeEvents = s.freeEvents := rfl
@[simp] theorem State.setBig_freeReads (x : BigReg) (v : Nat) : (s.setBig x v).freeReads = s.freeReads := rfl

@[simp] theorem State.zeroBigs_params (xs : List BigReg) : (s.zeroBigs xs).params = s.params := rfl
@[simp] theorem State.zeroBigs_eng (xs : List BigReg) : (s.zeroBigs xs).eng = s.eng := rfl
@[simp] theorem State.zeroBigs_irqEn (xs : List BigReg) : (s.zeroBigs xs).irqEn = s.irqEn := rfl
@[simp] theorem State.zeroBigs_status (xs : List BigReg) : (s.zeroBigs xs).status = s.status := rfl
@[simp] theorem State.zeroBigs_cmd (xs : List BigReg) : (s.zeroBigs xs).cmd = s.cmd := rfl
@[simp] theorem State.zeroBigs_bits (xs : List BigReg) : (s.zeroBigs xs).bits = s.bits := rfl
@[simp] theorem State.zeroBigs_rounds (xs : List BigReg) : (s.zeroBigs xs).rounds = s.rounds := rfl
@[simp] theorem State.zeroBigs_errcode (xs : List BigReg) : (s.zeroBigs xs).errcode = s.errcode := rfl
@[simp] theorem State.zeroBigs_abortPending (xs : List BigReg) : (s.zeroBigs xs).abortPending = s.abortPending := rfl
@[simp] theorem State.zeroBigs_draws (xs : List BigReg) : (s.zeroBigs xs).draws = s.draws := rfl
@[simp] theorem State.zeroBigs_entropy (xs : List BigReg) : (s.zeroBigs xs).entropy = s.entropy := rfl
@[simp] theorem State.zeroBigs_quantum (xs : List BigReg) : (s.zeroBigs xs).quantum = s.quantum := rfl
@[simp] theorem State.zeroBigs_response (xs : List BigReg) : (s.zeroBigs xs).response = s.response := rfl
@[simp] theorem State.zeroBigs_inputs (xs : List BigReg) : (s.zeroBigs xs).inputs = s.inputs := rfl
@[simp] theorem State.zeroBigs_freeEvents (xs : List BigReg) : (s.zeroBigs xs).freeEvents = s.freeEvents := rfl
@[simp] theorem State.zeroBigs_freeReads (xs : List BigReg) : (s.zeroBigs xs).freeReads = s.freeReads := rfl

@[simp] theorem State.drop_params : (s.drop).params = s.params := rfl
@[simp] theorem State.drop_eng : (s.drop).eng = s.eng := rfl
@[simp] theorem State.drop_irqEn : (s.drop).irqEn = s.irqEn := rfl
@[simp] theorem State.drop_status : (s.drop).status = { s.status with overrun := true } := rfl
@[simp] theorem State.drop_cmd : (s.drop).cmd = s.cmd := rfl
@[simp] theorem State.drop_bits : (s.drop).bits = s.bits := rfl
@[simp] theorem State.drop_rounds : (s.drop).rounds = s.rounds := rfl
@[simp] theorem State.drop_errcode : (s.drop).errcode = s.errcode := rfl
@[simp] theorem State.drop_big : (s.drop).big = s.big := rfl
@[simp] theorem State.drop_abortPending : (s.drop).abortPending = s.abortPending := rfl
@[simp] theorem State.drop_draws : (s.drop).draws = s.draws := rfl
@[simp] theorem State.drop_entropy : (s.drop).entropy = s.entropy := rfl
@[simp] theorem State.drop_quantum : (s.drop).quantum = s.quantum := rfl
@[simp] theorem State.drop_response : (s.drop).response = s.response := rfl
@[simp] theorem State.drop_inputs : (s.drop).inputs = s.inputs := rfl
@[simp] theorem State.drop_freeEvents : (s.drop).freeEvents = s.freeEvents := rfl
@[simp] theorem State.drop_freeReads : (s.drop).freeReads = s.freeReads := rfl

@[simp] theorem State.accept_params (w : Word) : (s.accept w).params = s.params := rfl
@[simp] theorem State.accept_eng (w : Word) : (s.accept w).eng = .busy w .start := rfl
@[simp] theorem State.accept_irqEn (w : Word) : (s.accept w).irqEn = s.irqEn := rfl
@[simp] theorem State.accept_cmd (w : Word) : (s.accept w).cmd = w := rfl
@[simp] theorem State.accept_bits (w : Word) : (s.accept w).bits = s.bits := rfl
@[simp] theorem State.accept_rounds (w : Word) : (s.accept w).rounds = s.rounds := rfl
@[simp] theorem State.accept_errcode (w : Word) : (s.accept w).errcode = s.errcode := rfl
@[simp] theorem State.accept_big (w : Word) : (s.accept w).big = s.big := rfl
@[simp] theorem State.accept_abortPending (w : Word) : (s.accept w).abortPending = s.abortPending := rfl
@[simp] theorem State.accept_draws (w : Word) : (s.accept w).draws = s.draws := rfl
@[simp] theorem State.accept_entropy (w : Word) : (s.accept w).entropy = s.entropy := rfl
@[simp] theorem State.accept_quantum (w : Word) : (s.accept w).quantum = s.quantum := rfl
@[simp] theorem State.accept_response (w : Word) : (s.accept w).response = s.response := rfl
@[simp] theorem State.accept_inputs (w : Word) : (s.accept w).inputs = s.inputs := rfl
@[simp] theorem State.accept_freeEvents (w : Word) : (s.accept w).freeEvents = s.freeEvents := rfl
@[simp] theorem State.accept_freeReads (w : Word) : (s.accept w).freeReads = s.freeReads := rfl

@[simp] theorem State.offer_params (ds : List Nat) (q : Nat) : (s.offer ds q).params = s.params := rfl
@[simp] theorem State.offer_eng (ds : List Nat) (q : Nat) : (s.offer ds q).eng = s.eng := rfl
@[simp] theorem State.offer_irqEn (ds : List Nat) (q : Nat) : (s.offer ds q).irqEn = s.irqEn := rfl
@[simp] theorem State.offer_status (ds : List Nat) (q : Nat) : (s.offer ds q).status = s.status := rfl
@[simp] theorem State.offer_cmd (ds : List Nat) (q : Nat) : (s.offer ds q).cmd = s.cmd := rfl
@[simp] theorem State.offer_bits (ds : List Nat) (q : Nat) : (s.offer ds q).bits = s.bits := rfl
@[simp] theorem State.offer_rounds (ds : List Nat) (q : Nat) : (s.offer ds q).rounds = s.rounds := rfl
@[simp] theorem State.offer_errcode (ds : List Nat) (q : Nat) : (s.offer ds q).errcode = s.errcode := rfl
@[simp] theorem State.offer_big (ds : List Nat) (q : Nat) : (s.offer ds q).big = s.big := rfl
@[simp] theorem State.offer_abortPending (ds : List Nat) (q : Nat) : (s.offer ds q).abortPending = s.abortPending := rfl
@[simp] theorem State.offer_draws (ds : List Nat) (q : Nat) : (s.offer ds q).draws = s.draws := rfl
@[simp] theorem State.offer_entropy (ds : List Nat) (q : Nat) : (s.offer ds q).entropy = ds := rfl
@[simp] theorem State.offer_quantum (ds : List Nat) (q : Nat) : (s.offer ds q).quantum = q := rfl
@[simp] theorem State.offer_response (ds : List Nat) (q : Nat) : (s.offer ds q).response = s.response := rfl
@[simp] theorem State.offer_inputs (ds : List Nat) (q : Nat) : (s.offer ds q).inputs = s.inputs := rfl
@[simp] theorem State.offer_freeEvents (ds : List Nat) (q : Nat) : (s.offer ds q).freeEvents = s.freeEvents := rfl
@[simp] theorem State.offer_freeReads (ds : List Nat) (q : Nat) : (s.offer ds q).freeReads = s.freeReads := rfl

@[simp] theorem State.respond_params (r : Response) : (s.respond r).params = s.params := rfl
@[simp] theorem State.respond_eng (r : Response) : (s.respond r).eng = s.eng := rfl
@[simp] theorem State.respond_irqEn (r : Response) : (s.respond r).irqEn = s.irqEn := rfl
@[simp] theorem State.respond_status (r : Response) : (s.respond r).status = s.status := rfl
@[simp] theorem State.respond_cmd (r : Response) : (s.respond r).cmd = s.cmd := rfl
@[simp] theorem State.respond_bits (r : Response) : (s.respond r).bits = s.bits := rfl
@[simp] theorem State.respond_rounds (r : Response) : (s.respond r).rounds = s.rounds := rfl
@[simp] theorem State.respond_errcode (r : Response) : (s.respond r).errcode = s.errcode := rfl
@[simp] theorem State.respond_big (r : Response) : (s.respond r).big = s.big := rfl
@[simp] theorem State.respond_abortPending (r : Response) : (s.respond r).abortPending = s.abortPending := rfl
@[simp] theorem State.respond_draws (r : Response) : (s.respond r).draws = s.draws := rfl
@[simp] theorem State.respond_entropy (r : Response) : (s.respond r).entropy = s.entropy := rfl
@[simp] theorem State.respond_quantum (r : Response) : (s.respond r).quantum = s.quantum := rfl
@[simp] theorem State.respond_response (r : Response) : (s.respond r).response = some r := rfl
@[simp] theorem State.respond_inputs (r : Response) : (s.respond r).inputs = s.inputs := rfl
@[simp] theorem State.respond_freeEvents (r : Response) : (s.respond r).freeEvents = s.freeEvents := rfl
@[simp] theorem State.respond_freeReads (r : Response) : (s.respond r).freeReads = s.freeReads := rfl

@[simp] theorem State.respondFree_params (mk : Word → Response) : (s.respondFree mk).params = s.params := rfl
@[simp] theorem State.respondFree_eng (mk : Word → Response) : (s.respondFree mk).eng = s.eng := rfl
@[simp] theorem State.respondFree_irqEn (mk : Word → Response) : (s.respondFree mk).irqEn = s.irqEn := rfl
@[simp] theorem State.respondFree_status (mk : Word → Response) : (s.respondFree mk).status = s.status := rfl
@[simp] theorem State.respondFree_cmd (mk : Word → Response) : (s.respondFree mk).cmd = s.cmd := rfl
@[simp] theorem State.respondFree_bits (mk : Word → Response) : (s.respondFree mk).bits = s.bits := rfl
@[simp] theorem State.respondFree_rounds (mk : Word → Response) : (s.respondFree mk).rounds = s.rounds := rfl
@[simp] theorem State.respondFree_errcode (mk : Word → Response) : (s.respondFree mk).errcode = s.errcode := rfl
@[simp] theorem State.respondFree_big (mk : Word → Response) : (s.respondFree mk).big = s.big := rfl
@[simp] theorem State.respondFree_abortPending (mk : Word → Response) : (s.respondFree mk).abortPending = s.abortPending := rfl
@[simp] theorem State.respondFree_draws (mk : Word → Response) : (s.respondFree mk).draws = s.draws := rfl
@[simp] theorem State.respondFree_entropy (mk : Word → Response) : (s.respondFree mk).entropy = s.entropy := rfl
@[simp] theorem State.respondFree_quantum (mk : Word → Response) : (s.respondFree mk).quantum = s.quantum := rfl
@[simp] theorem State.respondFree_response (mk : Word → Response) : (s.respondFree mk).response = some (mk (Config.unspecifiedRead s.freeReads)) := rfl
@[simp] theorem State.respondFree_inputs (mk : Word → Response) : (s.respondFree mk).inputs = s.inputs := rfl
@[simp] theorem State.respondFree_freeEvents (mk : Word → Response) : (s.respondFree mk).freeEvents = s.freeEvents := rfl
@[simp] theorem State.respondFree_freeReads (mk : Word → Response) : (s.respondFree mk).freeReads = s.freeReads + 1 := rfl

@[simp] theorem State.useDraws_params (rest : List Nat) : (s.useDraws rest).params = s.params := rfl
@[simp] theorem State.useDraws_eng (rest : List Nat) : (s.useDraws rest).eng = s.eng := rfl
@[simp] theorem State.useDraws_irqEn (rest : List Nat) : (s.useDraws rest).irqEn = s.irqEn := rfl
@[simp] theorem State.useDraws_status (rest : List Nat) : (s.useDraws rest).status = s.status := rfl
@[simp] theorem State.useDraws_cmd (rest : List Nat) : (s.useDraws rest).cmd = s.cmd := rfl
@[simp] theorem State.useDraws_bits (rest : List Nat) : (s.useDraws rest).bits = s.bits := rfl
@[simp] theorem State.useDraws_rounds (rest : List Nat) : (s.useDraws rest).rounds = s.rounds := rfl
@[simp] theorem State.useDraws_errcode (rest : List Nat) : (s.useDraws rest).errcode = s.errcode := rfl
@[simp] theorem State.useDraws_big (rest : List Nat) : (s.useDraws rest).big = s.big := rfl
@[simp] theorem State.useDraws_abortPending (rest : List Nat) : (s.useDraws rest).abortPending = s.abortPending := rfl
@[simp] theorem State.useDraws_draws (rest : List Nat) : (s.useDraws rest).draws = s.draws + (s.entropy.length - rest.length) := rfl
@[simp] theorem State.useDraws_entropy (rest : List Nat) : (s.useDraws rest).entropy = rest := rfl
@[simp] theorem State.useDraws_quantum (rest : List Nat) : (s.useDraws rest).quantum = s.quantum := rfl
@[simp] theorem State.useDraws_response (rest : List Nat) : (s.useDraws rest).response = s.response := rfl
@[simp] theorem State.useDraws_inputs (rest : List Nat) : (s.useDraws rest).inputs = s.inputs := rfl
@[simp] theorem State.useDraws_freeEvents (rest : List Nat) : (s.useDraws rest).freeEvents = s.freeEvents := rfl
@[simp] theorem State.useDraws_freeReads (rest : List Nat) : (s.useDraws rest).freeReads = s.freeReads := rfl

@[simp] theorem State.doReset_params : (s.doReset).params = s.params := rfl
@[simp] theorem State.doReset_eng : (s.doReset).eng = State.reset.eng := rfl
@[simp] theorem State.doReset_irqEn : (s.doReset).irqEn = State.reset.irqEn := rfl
@[simp] theorem State.doReset_status : (s.doReset).status = State.reset.status := rfl
@[simp] theorem State.doReset_cmd : (s.doReset).cmd = State.reset.cmd := rfl
@[simp] theorem State.doReset_bits : (s.doReset).bits = State.reset.bits := rfl
@[simp] theorem State.doReset_rounds : (s.doReset).rounds = State.reset.rounds := rfl
@[simp] theorem State.doReset_errcode : (s.doReset).errcode = State.reset.errcode := rfl
@[simp] theorem State.doReset_big : (s.doReset).big = State.reset.big := rfl
@[simp] theorem State.doReset_abortPending : (s.doReset).abortPending = State.reset.abortPending := rfl
@[simp] theorem State.doReset_draws : (s.doReset).draws = State.reset.draws := rfl
@[simp] theorem State.doReset_entropy : (s.doReset).entropy = State.reset.entropy := rfl
@[simp] theorem State.doReset_quantum : (s.doReset).quantum = State.reset.quantum := rfl
@[simp] theorem State.doReset_response : (s.doReset).response = State.reset.response := rfl
@[simp] theorem State.doReset_inputs : (s.doReset).inputs = s.inputs := rfl
@[simp] theorem State.doReset_freeEvents : (s.doReset).freeEvents = s.freeEvents := rfl
@[simp] theorem State.doReset_freeReads : (s.doReset).freeReads = s.freeReads := rfl

@[simp] theorem State.accept_done (w : Word) : (s.accept w).status.done = false := rfl
@[simp] theorem State.accept_error (w : Word) : (s.accept w).status.error = false := rfl
@[simp] theorem State.accept_overrun (w : Word) : (s.accept w).status.overrun = s.status.overrun := rfl
@[simp] theorem State.accept_prime (w : Word) :
    (s.accept w).status.prime = (s.status.prime && !(decode? w == some .isPrime)) := rfl

/-- Zeroing a list of registers zeroes those and leaves the others. -/
@[simp] theorem State.zeroBigs_get (xs : List BigReg) (x : BigReg) :
    (s.zeroBigs xs).big.get x = if x ∈ xs then 0 else s.big.get x := by
  have key : ∀ (ys : List BigReg) (b : BigRegs),
      (ys.foldl (fun b y => b.set y 0) b).get x = if x ∈ ys then 0 else b.get x := by
    intro ys
    induction ys with
    | nil => intro b; simp
    | cons y ys ih =>
      intro b
      rw [List.foldl_cons, ih, BigRegs.get_set]
      by_cases hx : x = y <;> by_cases hm : x ∈ ys <;> simp [hx, hm]
  exact key xs s.big

@[simp] theorem State.write_params (e : Effect) : (s.write e).params = s.params := by
  cases e <;> simp [State.write]
@[simp] theorem State.write_irqEn (e : Effect) : (s.write e).irqEn = s.irqEn := by
  cases e <;> simp [State.write]
@[simp] theorem State.write_cmd (e : Effect) : (s.write e).cmd = s.cmd := by
  cases e <;> simp [State.write]
@[simp] theorem State.write_bits (e : Effect) : (s.write e).bits = s.bits := by
  cases e <;> simp [State.write]
@[simp] theorem State.write_rounds (e : Effect) : (s.write e).rounds = s.rounds := by
  cases e <;> simp [State.write]
@[simp] theorem State.write_abortPending (e : Effect) : (s.write e).abortPending = s.abortPending := by
  cases e <;> simp [State.write]
@[simp] theorem State.write_draws (e : Effect) : (s.write e).draws = s.draws := by
  cases e <;> simp [State.write]
@[simp] theorem State.write_entropy (e : Effect) : (s.write e).entropy = s.entropy := by
  cases e <;> simp [State.write]
@[simp] theorem State.write_quantum (e : Effect) : (s.write e).quantum = s.quantum := by
  cases e <;> simp [State.write]
@[simp] theorem State.write_response (e : Effect) : (s.write e).response = s.response := by
  cases e <;> simp [State.write]
@[simp] theorem State.write_inputs (e : Effect) : (s.write e).inputs = s.inputs := by
  cases e <;> simp [State.write]
@[simp] theorem State.write_freeEvents (e : Effect) : (s.write e).freeEvents = s.freeEvents := by
  cases e <;> simp [State.write]
@[simp] theorem State.write_freeReads (e : Effect) : (s.write e).freeReads = s.freeReads := by
  cases e <;> simp [State.write]
@[simp] theorem State.write_eng (e : Effect) : (s.write e).eng = s.eng := by
  cases e <;> simp [State.write]
@[simp] theorem State.write_errcode (e : Effect) : (s.write e).errcode = s.errcode := by
  cases e <;> simp [State.write]

@[simp] theorem State.complete_params (e : Effect) : (s.complete e).params = s.params :=
  s.write_params e
@[simp] theorem State.complete_irqEn (e : Effect) : (s.complete e).irqEn = s.irqEn :=
  s.write_irqEn e
@[simp] theorem State.complete_cmd (e : Effect) : (s.complete e).cmd = s.cmd :=
  s.write_cmd e
@[simp] theorem State.complete_bits (e : Effect) : (s.complete e).bits = s.bits :=
  s.write_bits e
@[simp] theorem State.complete_rounds (e : Effect) : (s.complete e).rounds = s.rounds :=
  s.write_rounds e
@[simp] theorem State.complete_abortPending (e : Effect) : (s.complete e).abortPending = s.abortPending :=
  s.write_abortPending e
@[simp] theorem State.complete_draws (e : Effect) : (s.complete e).draws = s.draws :=
  s.write_draws e
@[simp] theorem State.complete_entropy (e : Effect) : (s.complete e).entropy = s.entropy :=
  s.write_entropy e
@[simp] theorem State.complete_quantum (e : Effect) : (s.complete e).quantum = s.quantum :=
  s.write_quantum e
@[simp] theorem State.complete_response (e : Effect) : (s.complete e).response = s.response :=
  s.write_response e
@[simp] theorem State.complete_inputs (e : Effect) : (s.complete e).inputs = s.inputs :=
  s.write_inputs e
@[simp] theorem State.complete_freeEvents (e : Effect) : (s.complete e).freeEvents = s.freeEvents :=
  s.write_freeEvents e
@[simp] theorem State.complete_freeReads (e : Effect) : (s.complete e).freeReads = s.freeReads :=
  s.write_freeReads e
@[simp] theorem State.complete_eng (e : Effect) : (s.complete e).eng = .idle := rfl
@[simp] theorem State.complete_errcode (e : Effect) : (s.complete e).errcode = 0 := rfl
@[simp] theorem State.complete_big (e : Effect) : (s.complete e).big = (s.write e).big := rfl
@[simp] theorem State.complete_done (e : Effect) : (s.complete e).status.done = true := rfl
@[simp] theorem State.complete_error (e : Effect) : (s.complete e).status.error = false := rfl
@[simp] theorem State.complete_overrun (e : Effect) : (s.complete e).status.overrun = s.status.overrun := by
  cases e <;> simp [State.complete, State.write]

@[simp] theorem State.raiseError_params (c : ErrorCode) : (s.raiseError c).params = s.params := by cases c <;> rfl
@[simp] theorem State.raiseError_irqEn (c : ErrorCode) : (s.raiseError c).irqEn = s.irqEn := by cases c <;> rfl
@[simp] theorem State.raiseError_cmd (c : ErrorCode) : (s.raiseError c).cmd = s.cmd := by cases c <;> rfl
@[simp] theorem State.raiseError_bits (c : ErrorCode) : (s.raiseError c).bits = s.bits := by cases c <;> rfl
@[simp] theorem State.raiseError_rounds (c : ErrorCode) : (s.raiseError c).rounds = s.rounds := by cases c <;> rfl
@[simp] theorem State.raiseError_draws (c : ErrorCode) : (s.raiseError c).draws = s.draws := by cases c <;> rfl
@[simp] theorem State.raiseError_entropy (c : ErrorCode) : (s.raiseError c).entropy = s.entropy := by cases c <;> rfl
@[simp] theorem State.raiseError_quantum (c : ErrorCode) : (s.raiseError c).quantum = s.quantum := by cases c <;> rfl
@[simp] theorem State.raiseError_response (c : ErrorCode) : (s.raiseError c).response = s.response := by cases c <;> rfl
@[simp] theorem State.raiseError_inputs (c : ErrorCode) : (s.raiseError c).inputs = s.inputs := by cases c <;> rfl
@[simp] theorem State.raiseError_freeEvents (c : ErrorCode) : (s.raiseError c).freeEvents = s.freeEvents := by cases c <;> rfl
@[simp] theorem State.raiseError_freeReads (c : ErrorCode) : (s.raiseError c).freeReads = s.freeReads := by cases c <;> rfl
@[simp] theorem State.raiseError_eng (c : ErrorCode) : (s.raiseError c).eng = .idle := rfl
@[simp] theorem State.raiseError_errcode (c : ErrorCode) : (s.raiseError c).errcode = errorByte c := rfl
@[simp] theorem State.raiseError_abortPending (c : ErrorCode) : (s.raiseError c).abortPending = false := rfl
@[simp] theorem State.raiseError_done (c : ErrorCode) : (s.raiseError c).status.done = true := rfl
@[simp] theorem State.raiseError_error (c : ErrorCode) : (s.raiseError c).status.error = true := rfl
@[simp] theorem State.raiseError_overrun (c : ErrorCode) :
    (s.raiseError c).status.overrun = s.status.overrun := by cases c <;> rfl
theorem State.raiseError_prime (c : ErrorCode) :
    (s.raiseError c).status.prime = if errorIsLate c then s.status.prime && !s.dstPrime else s.status.prime := by
  cases c <;> rfl
theorem State.raiseError_get (c : ErrorCode) (x : BigReg) :
    (s.raiseError c).big.get x = if errorIsLate c ∧ x ∈ s.dst then 0 else s.big.get x := by
  cases c <;> simp [State.raiseError, State.errorEffects, errorIsLate]

@[simp] theorem State.takeEvent_params : s.takeEvent.params = s.params := by
  unfold State.takeEvent; split <;> rfl
@[simp] theorem State.takeEvent_eng : s.takeEvent.eng = s.eng := by
  unfold State.takeEvent; split <;> rfl
@[simp] theorem State.takeEvent_irqEn : s.takeEvent.irqEn = s.irqEn := by
  unfold State.takeEvent; split <;> rfl
@[simp] theorem State.takeEvent_status : s.takeEvent.status = s.status := by
  unfold State.takeEvent; split <;> rfl
@[simp] theorem State.takeEvent_cmd : s.takeEvent.cmd = s.cmd := by
  unfold State.takeEvent; split <;> rfl
@[simp] theorem State.takeEvent_bits : s.takeEvent.bits = s.bits := by
  unfold State.takeEvent; split <;> rfl
@[simp] theorem State.takeEvent_rounds : s.takeEvent.rounds = s.rounds := by
  unfold State.takeEvent; split <;> rfl
@[simp] theorem State.takeEvent_errcode : s.takeEvent.errcode = s.errcode := by
  unfold State.takeEvent; split <;> rfl
@[simp] theorem State.takeEvent_big : s.takeEvent.big = s.big := by
  unfold State.takeEvent; split <;> rfl
@[simp] theorem State.takeEvent_abortPending : s.takeEvent.abortPending = s.abortPending := by
  unfold State.takeEvent; split <;> rfl
@[simp] theorem State.takeEvent_draws : s.takeEvent.draws = s.draws := by
  unfold State.takeEvent; split <;> rfl
@[simp] theorem State.takeEvent_entropy : s.takeEvent.entropy = s.entropy := by
  unfold State.takeEvent; split <;> rfl
@[simp] theorem State.takeEvent_quantum : s.takeEvent.quantum = s.quantum := by
  unfold State.takeEvent; split <;> rfl
@[simp] theorem State.takeEvent_response : s.takeEvent.response = s.response := by
  unfold State.takeEvent; split <;> rfl
@[simp] theorem State.takeEvent_freeReads : s.takeEvent.freeReads = s.freeReads := by
  unfold State.takeEvent; split <;> rfl

end Sys2Proof.Machine
end

