-- ==== Sys2Proof/Laws/Engine.lean ====
section
/-! SUPPORT. What an engine step and a step of the machine can do, said once. -/

namespace Sys2Proof.Machine

/-- The decoder reads back what the encoder writes. -/
theorem decode?_encode (i : Instr) : decode? (encode i) = some i := by cases i <;> rfl

/-- The meaning of every command is one engine step of its machine. -/
theorem exec_eq (i : Instr) (s : State) : exec i s = .next (s.runCommand (commandMicro i)) := by
  cases i <;> rfl

/-- The destination set of the running command. -/
theorem State.dst_eq {s : State} {w : Word} {work : Work} (h : s.eng = .busy w work) :
    s.dst = match decode? w with
      | none => []
      | some i => dstOf i := by
  cases hd : decode? w <;> simp only [State.dst, State.running, h, hd]

theorem State.dstPrime_eq {s : State} {w : Word} {work : Work} (h : s.eng = .busy w work) :
    s.dstPrime = match decode? w with
      | none => false
      | some i => dstHasPrime i := by
  cases hd : decode? w <;> simp only [State.dstPrime, State.running, h, hd]

/-- The destination set depends on ENG alone. -/
theorem State.dst_congr {s t : State} (h : s.eng = t.eng) : s.dst = t.dst := by
  unfold State.dst State.running; rw [h]

theorem State.dstPrime_congr {s t : State} (h : s.eng = t.eng) : s.dstPrime = t.dstPrime := by
  unfold State.dstPrime State.running; rw [h]

/-- What an engine step of a running command can do: the abort ending, a pause with new working values, a success
completion, or an error completion; the last three as the burst of its machine stops. -/
theorem runCommand_cases (s : State) (f : Operands → Option Nat → Work → Micro Work Ending) :
    (s.eng = .idle ∧ s.runCommand f = s) ∨
    ∃ w work, s.eng = .busy w work ∧
      ((s.abortPending = true ∧ s.runCommand f = s.raiseError .aborted) ∨
      (s.abortPending = false ∧
        ((∃ work' rest, burst (f s.operands) (s.quantum + 1) s.entropy work = .paused work' rest ∧
          s.runCommand f = { s.useDraws rest with eng := .busy w work' }) ∨
        (∃ e rest, burst (f s.operands) (s.quantum + 1) s.entropy work = .finished (.success e) rest ∧
          s.runCommand f = (s.useDraws rest).complete e) ∨
        (∃ c rest, burst (f s.operands) (s.quantum + 1) s.entropy work = .finished (.failure c) rest ∧
          s.runCommand f = (s.useDraws rest).raiseError c)))) := by
  unfold State.runCommand State.engineTurn
  cases he : s.eng with
  | idle => exact .inl ⟨rfl, rfl⟩
  | busy w work =>
    refine .inr ⟨w, work, rfl, ?_⟩
    cases ha : s.abortPending with
    | true => exact .inl ⟨rfl, rfl⟩
    | false =>
      refine .inr ⟨rfl, ?_⟩
      simp only [Bool.false_eq_true, if_false]
      cases hb : burst (f s.operands) (s.quantum + 1) s.entropy work with
      | paused work' rest => exact .inl ⟨work', rest, rfl, rfl⟩
      | finished r rest =>
        cases r with
        | success e => exact .inr (.inl ⟨e, rest, rfl, rfl⟩)
        | failure c => exact .inr (.inr ⟨c, rest, rfl, rfl⟩)

/-- An engine step of a running command with no abort pending is its burst. -/
theorem exec_busy {i : Instr} {s : State} {w : Word} {work : Work} (he : s.eng = .busy w work)
    (ha : s.abortPending = false) : exec i s =
      .next (s.afterBurst w (burst (commandMicro i s.operands) (s.quantum + 1) s.entropy work)) := by
  rw [exec_eq]; simp [State.runCommand, State.engineTurn, he, ha]

/-- An engine step of a running command with an abort pending is the abort ending. -/
theorem exec_abort {i : Instr} {s : State} {w : Word} {work : Work} (he : s.eng = .busy w work)
    (ha : s.abortPending = true) : exec i s = .next (s.raiseError .aborted) := by
  rw [exec_eq]; simp [State.runCommand, State.engineTurn, State.abortEnding, he, ha]

/-- Using no draw changes nothing. -/
@[simp] theorem State.useDraws_self (s : State) : s.useDraws s.entropy = s := by
  cases s; simp [State.useDraws]

/-- A command that ends with the answers it has, in a run shorter than the step's bound, ends in this step. -/
theorem exec_of_runs {i : Instr} {s : State} {w : Word} {work work' : Work} {n : Nat} {rest : List Nat} {e : Ending}
    (he : s.eng = .busy w work) (ha : s.abortPending = false)
    (hr : Runs (commandMicro i s.operands) n s.entropy work rest work')
    (hf : commandMicro i s.operands rest.head? work' = .finish e) (hn : n ≤ s.quantum) :
    exec i s = .next (s.afterBurst w (.finished e rest)) := by
  rw [exec_busy he ha, burst_finished hr hf (by omega)]

/-- What a step can do, by the event it takes. -/
theorem step_cases {s t : State} (h : step s = .next t) :
    (∃ txn, s.nextEvent = .host txn ∧ t = hostStep txn s.takeEvent) ∨
    (s.nextEvent = .reset ∧ t = s.takeEvent.doReset) ∨
    (∃ ds q, s.nextEvent = .engine ds q ∧ engineStep (s.takeEvent.offer ds q) = .next t) := by
  unfold step runEvent at h
  cases he : s.nextEvent with
  | host txn => rw [he] at h; cases h; exact .inl ⟨txn, rfl, rfl⟩
  | engine ds q => rw [he] at h; exact .inr (.inr ⟨ds, q, rfl, h⟩)
  | reset => rw [he] at h; cases h; exact .inr (.inl ⟨rfl, rfl⟩)
  | hostInReset txn => rw [he] at h; cases h

/-- What the engine can do, by what runs. -/
theorem engineStep_cases {s t : State} (h : engineStep s = .next t) :
    (s.eng = .idle ∧ t = s) ∨
    (∃ w work i, s.eng = .busy w work ∧ decode? w = some i ∧ exec i s = .next t) ∨
    (∃ w work, s.eng = .busy w work ∧ decode? w = none ∧
      ((s.abortPending = true ∧ t = s.raiseError .aborted) ∨
        (s.abortPending = false ∧ t = s.raiseError .illegalCmd))) := by
  unfold engineStep at h
  cases he : s.eng with
  | idle => rw [he] at h; cases h; exact .inl ⟨rfl, rfl⟩
  | busy w work =>
    rw [he] at h
    simp only at h
    cases hd : decode w with
    | ok i =>
      rw [hd] at h
      exact .inr (.inl ⟨w, work, i, rfl, by simp [decode?, hd], h⟩)
    | error e =>
      rw [hd] at h
      refine .inr (.inr ⟨w, work, rfl, by simp [decode?, hd], ?_⟩)
      simp only [execIllegal, State.engineTurn, he, Host.Outcome.next.injEq] at h
      cases ha : s.abortPending with
      | true => rw [ha] at h; simp only [if_true] at h; exact .inl ⟨rfl, h.symm⟩
      | false => rw [ha] at h; simp only [Bool.false_eq_true, if_false] at h; exact .inr ⟨rfl, h.symm⟩

end Sys2Proof.Machine
end

