-- ==== Sys2Proof/Laws/Keeps.lean ====
section
/-! SUPPORT. Each micro-operation keeps the meaning of the working values (Safety.lean, `Work.Ok`), and a command that
ends does so as its rule says. -/

namespace Sys2Proof.Machine

theorem powStart_ok (a b m : Nat) : (powStart b m).Ok a b m :=
  ⟨le_refl _, by simp [powStart, div_two_pow_bitlen]⟩

theorem pow_keeps {a b m : Nat} {p : PowWork} (h : p.Ok a b m) :
    (powMicro a b m p).Keeps (·.Ok a b m) (· = a ^ b % m) := by
  obtain ⟨i, r⟩ := p
  cases i with
  | zero =>
    have h2 : r = a ^ (b / 2 ^ 0) % m := h.2
    rw [pow_zero, Nat.div_one] at h2
    exact h2
  | succ i => exact ⟨by have := h.1; simp at this ⊢; omega, powStep_eq a b m i r h.2⟩

theorem gcd_keeps {x y g : Nat} (h : Nat.gcd x y = g) :
    (gcdMicro (x, y)).Keeps (fun xy => Nat.gcd xy.1 xy.2 = g) (· = g) := by
  unfold gcdMicro
  by_cases hy : y = 0
  · subst hy; simpa [Micro.Keeps] using h
  · simp only [hy, if_false, Micro.Keeps]
    rw [← h, Nat.gcd_comm y, ← Nat.gcd_rec, Nat.gcd_comm]

theorem invStart_ok (a m : Nat) : (invStart a m).Ok a m := euclidOk_start a m

/-- What `ModInv(a, m)` answers (42_modular_arithmetic.md R145). -/
def InverseOk (a m : Nat) (o : Option Nat) : Prop :=
  (Nat.gcd a m = 1 → ∃ v, o = some v ∧ v < m ∧ a * v % m = 1 % m) ∧ (Nat.gcd a m ≠ 1 → o = none)

theorem inv_keeps {a m : Nat} (hm : m ≠ 0) {v : InvWork} (h : v.Ok a m) :
    (invMicro m v).Keeps (·.Ok a m) (InverseOk a m) := by
  obtain ⟨r0, r1, s0, s1⟩ := v
  unfold invMicro
  by_cases h1 : r1 = 0
  · subst h1; exact invResult_spec hm h
  · simp only [h1, if_false, invStep, Micro.Keeps]
    exact euclidOk_step h

/-- The verdict of a test of `n`: it accepts only what `MRw` accepts on some witness list (40_prime_testing.md R101). -/
def VerdictOk (t n : Nat) (v : Bool) : Prop := v = true → ∃ ws, WitnessList n t ws ∧ mrw n t ws = true

theorem roundsDone_mrw {t n d r : Nat} (h5 : 5 ≤ n) (hodd : n % 2 = 1) (hs : splitOdd n = (d, r))
    (h : RoundsDone n d r t) : ∃ ws, WitnessList n t ws ∧ mrw n t ws = true := by
  obtain ⟨ws, hl, hw⟩ := h
  refine ⟨ws, fun _ => ⟨hl, fun a ha => ⟨(hw a ha).1, (hw a ha).2.1⟩⟩, ?_⟩
  have h1 : ¬ n ≤ 1 := by omega
  have h2 : ¬ (n = 2 ∨ n = 3) := by omega
  have h3 : ¬ n % 2 = 0 := by omega
  simp only [mrw, h1, h2, h3, if_false, hs, List.all_eq_true]
  intro a ha
  exact (hw a (List.mem_of_mem_take ha)).2.2

theorem RoundsDone.succ {n d r i a : Nat} (h : RoundsDone n d r i) (h1 : 2 ≤ a) (h2 : a ≤ n - 2)
    (h3 : roundAccepts n d r a = true) : RoundsDone n d r (i + 1) := by
  obtain ⟨ws, hl, hw⟩ := h
  exact ⟨a :: ws, by simp [hl], by simpa using ⟨⟨h1, h2, h3⟩, hw⟩⟩

theorem mr_keeps {t : Nat} (draw : Option Nat) {m : MrWork} {n : Nat} (h : m.Ok t) (hn : m.n = n) :
    (mrMicro t draw m).Keeps (fun m => m.Ok t ∧ m.n = n) (VerdictOk t n) := by
  subst hn
  cases m with
  | check n =>
    simp only [mrMicro]
    split_ifs with h1 h2 h3
    · exact fun h => by cases h
    · refine fun _ => ⟨[], fun h5 => by rw [MrWork.n] at h5; omega, ?_⟩
      simp [mrw, MrWork.n, h1, h2]
    · exact fun h => by cases h
    · exact ⟨⟨by omega, by omega, by omega, by simp⟩, rfl⟩
  | split n d r =>
    obtain ⟨h5, hodd, hd, he⟩ := h
    simp only [mrMicro]
    split_ifs with h1
    · refine ⟨⟨h5, hodd, by omega, ?_⟩, rfl⟩
      have : d / 2 * 2 = d := by omega
      rw [pow_succ, Nat.mul_comm (2 ^ r), ← Nat.mul_assoc, this]; exact he
    · exact ⟨⟨h5, hodd, splitOdd_unique (n := n) (by omega) (d := d) (by omega) he, Nat.zero_le _, [], rfl, by simp⟩, rfl⟩
  | witness c =>
    obtain ⟨h5, hodd, hs, hi, hr⟩ := h
    simp only [mrMicro]
    split_ifs with h1
    · intro _
      have hit : c.i = t := by omega
      exact roundsDone_mrw h5 hodd hs (hit ▸ hr)
    · cases draw with
      | none => trivial
      | some raw =>
        have := drawRange_mem (by omega : 2 ≤ c.n - 2) raw
        exact ⟨⟨⟨h5, hodd, hs, hi, hr⟩, by omega, this.1, this.2, powStart_ok _ _ _⟩, rfl⟩
  | power c a p =>
    obtain ⟨hc, hi, ha1, ha2, hp⟩ := h
    refine (pow_keeps hp).lift (fun p hp => ⟨⟨hc, hi, ha1, ha2, hp⟩, rfl⟩) ?_
    intro x hx
    rw [← modExp_eq] at hx
    subst hx
    split_ifs with h1
    · have hacc : roundAccepts c.n c.d c.r a = true := by rcases h1 with h1 | h1 <;> simp [roundAccepts, h1]
      obtain ⟨h5, hodd, hs, -, hr⟩ := hc
      exact ⟨⟨h5, hodd, hs, by simp; omega, hr.succ ha1 ha2 hacc⟩, rfl⟩
    · rw [not_or] at h1
      exact ⟨⟨hc, hi, a, ha1, ha2, by simp [roundAccepts, h1]⟩, rfl⟩
  | square c x j =>
    obtain ⟨hc, hi, a, ha1, ha2, hsq⟩ := h
    cases j with
    | zero => exact fun h => by cases h
    | succ j =>
      simp only [mrMicro]
      split_ifs with h1
      · have hacc : roundAccepts c.n c.d c.r a = true := by rw [hsq]; simp [squareLoop, h1]
        obtain ⟨h5, hodd, hs, -, hr⟩ := hc
        exact ⟨⟨h5, hodd, hs, by simp; omega, hr.succ ha1 ha2 hacc⟩, rfl⟩
      · refine ⟨⟨hc, hi, a, ha1, ha2, ?_⟩, rfl⟩
        rw [hsq]; simp [squareLoop, h1]

theorem gen_keeps {bits t : Nat} (hb : 2 ≤ bits) (draw : Option Nat) {g : GenWork} (h : g.Ok bits t) :
    (genMicro bits t draw g).Keeps (·.Ok bits t) (ProbablePrime bits t) := by
  cases g with
  | draw =>
    cases draw with
    | none => trivial
    | some raw => exact ⟨trivial, candidate_spec hb raw⟩
  | test m =>
    obtain ⟨hm, hc⟩ := h
    refine (mr_keeps draw hm rfl).lift (fun m' h' => ⟨h'.1, by rw [h'.2]; exact hc⟩) ?_
    intro v hv
    cases v with
    | true => exact ⟨hc, hv rfl⟩
    | false => trivial

/-- The bounds of a pair of primes of `h ≥ 3` bits, and of the numbers made of it. -/
theorem primePair_bounds {h t p q : Nat} (hh : 3 ≤ h) (hpq : PrimePair h t p q) :
    5 ≤ p ∧ 5 ≤ q ∧ p < 2 ^ h ∧ q < 2 ^ h ∧ p * q < 2 ^ (2 * h) ∧ phiOf p q < p * q ∧ 16 ≤ phiOf p q := by
  obtain ⟨⟨⟨-, hp1, hp2⟩, -⟩, ⟨⟨-, hq1, hq2⟩, -⟩, -⟩ := hpq
  have h4 : 2 ^ 2 ≤ 2 ^ (h - 1) := Nat.pow_le_pow_right (by omega) (by omega)
  have hp5 : 5 ≤ p := by omega
  have hq5 : 5 ≤ q := by omega
  obtain ⟨a, rfl⟩ : ∃ a, p = a + 1 := ⟨p - 1, by omega⟩
  obtain ⟨b, rfl⟩ : ∃ b, q = b + 1 := ⟨q - 1, by omega⟩
  refine ⟨hp5, hq5, hp2, hq2, ?_, ?_, ?_⟩
  · rw [two_mul, pow_add]; exact Nat.mul_lt_mul'' hp2 hq2
  · simp only [phiOf, Nat.add_sub_cancel]; nlinarith
  · simp only [phiOf, Nat.add_sub_cancel]; nlinarith

/-- What a key pair satisfies when it is written (41_key_generation.md R127, with R123 and R106). -/
def KeyPairOk (h t p q n phi e d : Nat) : Prop :=
  PrimePair h t p q ∧ n = p * q ∧ phi = phiOf p q ∧ TrialE phi e ∧ Nat.gcd e phi = 1 ∧
    e * d % phi = 1 ∧ 1 ≤ d ∧ d < phi

/-- How GEN_KEYS can end after its checks: with a key pair (R128: KEYGEN_FAILURE is unreachable). -/
def KeysEnding (h t : Nat) : Ending → Prop
  | .success (.keyPair p q n phi e d) => KeyPairOk h t p q n phi e d
  | _ => False

theorem keys_keeps {h t : Nat} (hh : 3 ≤ h) (draw : Option Nat) {k : KeysWork} (hk : k.Ok h t) :
    (keysMicro h t draw k).Keeps (·.Ok h t) (KeysEnding h t) := by
  cases k with
  | primeP g => exact (gen_keeps (by omega) draw hk).lift (fun _ h => h) (fun p hp => ⟨hp, trivial⟩)
  | primeQ p g =>
    obtain ⟨hp, hg⟩ := hk
    refine (gen_keeps (by omega) draw hg).lift (fun _ h => ⟨hp, h⟩) ?_
    intro q hq
    split_ifs with hne
    · exact ⟨hp, trivial⟩
    · exact ⟨⟨hp, hq, fun h => hne h.symm⟩, .inl rfl, rfl⟩
  | coprime p q e x y =>
    obtain ⟨hpq, he, hg⟩ := hk
    refine (gcd_keeps hg).lift (fun _ h => ⟨hpq, he, h⟩) ?_
    intro g hgr
    subst hgr
    split_ifs with h1
    · exact ⟨hpq, he, h1, invStart_ok _ _⟩
    · refine ⟨hpq, ?_⟩
      rcases he with rfl | ⟨h2, -⟩
      · exact h1
      · exact h2
  | redrawE p q =>
    obtain ⟨hpq, hne⟩ := hk
    cases draw with
    | none => trivial
    | some raw =>
      obtain ⟨-, -, -, -, -, -, h16⟩ := primePair_bounds hh hpq
      have := drawRange_mem (by omega : 2 ≤ phiOf p q - 1) raw
      exact ⟨hpq, .inr ⟨hne, this.1, this.2⟩, rfl⟩
  | inverse p q e v =>
    obtain ⟨hpq, he, hg, hv⟩ := hk
    obtain ⟨-, -, -, -, -, -, h16⟩ := primePair_bounds hh hpq
    refine (inv_keeps (by omega) hv).lift (fun _ h => ⟨hpq, he, hg, h⟩) ?_
    intro o ho
    obtain ⟨d, rfl, hd, hed⟩ := ho.1 hg
    rw [Nat.mod_eq_of_lt (by omega : 1 < phiOf p q)] at hed
    refine ⟨hpq, rfl, rfl, he, hg, hed, ?_, hd⟩
    rcases Nat.eq_zero_or_pos d with rfl | h
    · simp at hed
    · exact h

/-- How a command can end by itself, on its operands. -/
def EndingOk (o : Operands) (i : Instr) (e : Ending) : Prop :=
  match i with
  | .nop => e = .success .nothing
  | .isPrime =>
    (o.t = 0 ∧ e = .failure .badRounds) ∨ (o.t ≠ 0 ∧ ∃ v, e = .success (.verdict v) ∧ VerdictOk o.t o.a v)
  | .genPrime =>
    (¬ (2 ≤ o.bits ∧ o.bits ≤ o.w) ∧ e = .failure .badBits) ∨
    (2 ≤ o.bits ∧ o.bits ≤ o.w ∧ o.t = 0 ∧ e = .failure .badRounds) ∨
    (o.primeChecks ∧ ∃ c, e = .success (.result c) ∧ ProbablePrime o.bits o.t c)
  | .genKeys =>
    (¬ (6 ≤ o.bits ∧ o.bits ≤ o.w ∧ o.bits % 2 = 0) ∧ e = .failure .badBits) ∨
    (6 ≤ o.bits ∧ o.bits ≤ o.w ∧ o.bits % 2 = 0 ∧ o.t = 0 ∧ e = .failure .badRounds) ∨
    (o.keyChecks ∧ ∃ p q n phi k d, e = .success (.keyPair p q n phi k d) ∧
      KeyPairOk (o.bits / 2) o.t p q n phi k d)
  | .modexp =>
    (o.m = 0 ∧ e = .failure .modulusZero) ∨ (o.m ≠ 0 ∧ e = .success (.result (o.a ^ o.b % o.m)))
  | .gcd => e = .success (.result (Nat.gcd o.a o.b))
  | .modinv =>
    (o.m = 0 ∧ e = .failure .modulusZero) ∨
    (o.m ≠ 0 ∧ Nat.gcd o.a o.m ≠ 1 ∧ e = .failure .noInverse) ∨
    (o.m ≠ 0 ∧ ∃ v, e = .success (.result v) ∧ v < o.m ∧ o.a * v % o.m = 1 % o.m)
  | .zeroize => e = .success .zeroAll

/-- Each micro-operation of a command keeps its working values right, and ends it only as its rule says. -/
theorem command_keeps (i : Instr) (o : Operands) (draw : Option Nat) {work : Work} (h : work.Ok o (some i)) :
    (commandMicro i o draw work).Keeps (·.Ok o (some i)) (EndingOk o i) := by
  cases i with
  | nop => rfl
  | zeroize => rfl
  | isPrime =>
    have hstart : (if o.t = 0 then Micro.finish (Ending.failure .badRounds)
        else .advance (Work.test (.check o.a))).Keeps (·.Ok o (some .isPrime)) (EndingOk o .isPrime) := by
      split_ifs with ht
      · exact .inl ⟨ht, rfl⟩
      · exact ⟨rfl, ht, rfl, trivial⟩
    cases work with
    | test m =>
      obtain ⟨-, ht, hn, hm⟩ := h
      exact (mr_keeps draw hm hn).lift (fun _ h => ⟨rfl, ht, h.2, h.1⟩)
        (fun v hv => .inr ⟨ht, v, rfl, hv⟩)
    | _ => exact hstart
  | genPrime =>
    have hstart : (if o.bits < 2 ∨ o.w < o.bits then Micro.finish (Ending.failure .badBits)
        else if o.t = 0 then .finish (.failure .badRounds)
        else .advance (Work.gen .draw)).Keeps (·.Ok o (some .genPrime)) (EndingOk o .genPrime) := by
      split_ifs with hb ht
      · exact .inl ⟨by omega, rfl⟩
      · exact .inr (.inl ⟨by omega, by omega, ht, rfl⟩)
      · exact ⟨rfl, ⟨by omega, by omega, ht⟩, trivial⟩
    cases work with
    | gen g =>
      obtain ⟨-, hc, hg⟩ := h
      exact (gen_keeps hc.1 draw hg).lift (fun _ h => ⟨rfl, hc, h⟩)
        (fun c h => .inr (.inr ⟨hc, c, rfl, h⟩))
    | _ => exact hstart
  | genKeys =>
    have hstart : (if o.bits < 6 ∨ o.w < o.bits ∨ o.bits % 2 = 1 then Micro.finish (Ending.failure .badBits)
        else if o.t = 0 then .finish (.failure .badRounds)
        else .advance (Work.keys (.primeP .draw))).Keeps (·.Ok o (some .genKeys)) (EndingOk o .genKeys) := by
      split_ifs with hb ht
      · exact .inl ⟨by omega, rfl⟩
      · exact .inr (.inl ⟨by omega, by omega, by omega, ht, rfl⟩)
      · exact ⟨rfl, ⟨by omega, by omega, by omega, ht⟩, trivial⟩
    cases work with
    | keys k =>
      obtain ⟨-, hc, hk⟩ := h
      have hh : 3 ≤ o.bits / 2 := by have := hc.1; omega
      refine (keys_keeps hh draw hk).lift (fun _ h => ⟨rfl, hc, h⟩) ?_
      intro e he
      match e, he with
      | .success (.keyPair p q n phi k d), he => exact .inr (.inr ⟨hc, p, q, n, phi, k, d, rfl, he⟩)
    | _ => exact hstart
  | modexp =>
    have hstart : (if o.m = 0 then Micro.finish (Ending.failure .modulusZero)
        else .advance (Work.power (powStart o.b o.m))).Keeps (·.Ok o (some .modexp)) (EndingOk o .modexp) := by
      split_ifs with hm
      · exact .inl ⟨hm, rfl⟩
      · exact ⟨rfl, hm, powStart_ok _ _ _⟩
    cases work with
    | power p =>
      obtain ⟨-, hm, hp⟩ := h
      exact (pow_keeps hp).lift (fun _ h => ⟨rfl, hm, h⟩) (fun v hv => .inr ⟨hm, by rw [hv]⟩)
    | _ => exact hstart
  | gcd =>
    have hstart : (Micro.advance (Work.euclid o.a o.b)).Keeps (·.Ok o (some .gcd)) (EndingOk o .gcd) :=
      ⟨rfl, rfl⟩
    cases work with
    | euclid x y =>
      obtain ⟨-, hg⟩ := h
      refine (gcd_keeps hg).lift (fun _ h => ⟨rfl, h⟩) ?_
      intro v hv
      show Ending.success (.result v) = _
      rw [hv]
    | _ => exact hstart
  | modinv =>
    have hstart : (if o.m = 0 then Micro.finish (Ending.failure .modulusZero)
        else .advance (Work.inverse (invStart o.a o.m))).Keeps (·.Ok o (some .modinv)) (EndingOk o .modinv) := by
      split_ifs with hm
      · exact .inl ⟨hm, rfl⟩
      · exact ⟨rfl, hm, invStart_ok _ _⟩
    cases work with
    | inverse v =>
      obtain ⟨-, hm, hv⟩ := h
      refine (inv_keeps hm hv).lift (fun _ h => ⟨rfl, hm, h⟩) ?_
      intro r hr
      by_cases hg : Nat.gcd o.a o.m = 1
      · obtain ⟨d, rfl, h1, h2⟩ := hr.1 hg
        exact .inr (.inr ⟨hm, d, rfl, h1, h2⟩)
      · rw [hr.2 hg]; exact .inr (.inl ⟨hm, hg, rfl⟩)
    | _ => exact hstart

end Sys2Proof.Machine
end

