-- ==== Sys2Proof/Laws/Endings.lean ====
section
/-! SUPPORT. What the endings of a command write, and that a run which ends does so as its rule says (`EndingOk`). -/

namespace Sys2Proof.Machine

/-- What a success completion leaves in each register. -/
theorem State.write_get (s : State) (e : Effect) (x : BigReg) : (s.write e).big.get x =
    match e with
    | .nothing => s.big.get x
    | .verdict _ => s.big.get x
    | .result v => if x = .r then v else s.big.get x
    | .keyPair p q n phi e d =>
      if x = .d then d else if x = .e then e else if x = .phi then phi else if x = .n then n
      else if x = .q then q else if x = .p then p else s.big.get x
    | .zeroAll => 0 := by
  cases e with
  | zeroAll => exact (s.zeroBigs_get _ x).trans (by cases x <;> simp [BigReg.all])
  | _ => simp [State.write, BigRegs.get_set]

/-- What a success completion leaves in PRIME. -/
theorem State.complete_prime (s : State) (e : Effect) : (s.complete e).status.prime = match e with
  | .verdict v => v | .zeroAll => false | _ => s.status.prime := by
  cases e <;> simp [State.complete, State.write]

/-- An error of the check class changes no register (60_exceptions.md R174). -/
theorem State.raiseError_check {s : State} {c : ErrorCode} (h : errorIsLate c = false) :
    s.raiseError c = { s with
      abortPending := false
      eng          := .idle
      status       := { s.status with done := true, error := true }
      errcode      := errorByte c } := by
  simp [State.raiseError, State.errorEffects, h]

/-- What each command writes when it succeeds (10_state.md R31). -/
def EffectOf (i : Instr) (e : Effect) : Prop :=
  match i with
  | .nop => e = .nothing
  | .isPrime => ∃ v, e = .verdict v
  | .genPrime => ∃ v, e = .result v
  | .modexp => ∃ v, e = .result v
  | .gcd => ∃ v, e = .result v
  | .modinv => ∃ v, e = .result v
  | .genKeys => ∃ p q n f k d, e = .keyPair p q n f k d
  | .zeroize => e = .zeroAll

theorem command_effect {i : Instr} {o : Operands} {work : Work} {d : Option Nat} {e : Effect}
    (h : commandMicro i o d work = .finish (.success e)) : EffectOf i e := by
  cases i <;> simp only [commandMicro] at h
  · simp [nopMicro] at h; exact h.symm
  · unfold isPrimeMicro at h
    split at h
    · rename_i m
      cases hm : mrMicro o.t d m <;> rw [hm] at h <;> simp [Micro.lift] at h
      exact ⟨_, h.symm⟩
    · split at h <;> cases h
  · unfold genPrimeMicro at h
    split at h
    · rename_i m
      cases hm : genMicro o.bits o.t d m <;> rw [hm] at h <;> simp [Micro.lift] at h
      exact ⟨_, h.symm⟩
    · split at h <;> [cases h; (split at h <;> cases h)]
  · unfold genKeysMicro at h
    split at h
    · rename_i k
      cases hm : keysMicro (o.bits / 2) o.t d k <;> rw [hm] at h <;> simp [Micro.lift] at h
      subst h
      cases k with
      | primeP g =>
        simp only [keysMicro] at hm
        cases hg : genMicro (o.bits/2) o.t d g <;> rw [hg] at hm <;> simp [Micro.lift] at hm
      | primeQ p g =>
        simp only [keysMicro] at hm
        cases hg : genMicro (o.bits/2) o.t d g <;> rw [hg] at hm <;> simp [Micro.lift] at hm
        split at hm <;> cases hm
      | coprime p q e' x y =>
        simp only [keysMicro] at hm
        cases hg : gcdMicro (x, y) <;> rw [hg] at hm <;> simp [Micro.lift] at hm
        split at hm <;> cases hm
      | redrawE p q => cases d <;> simp [keysMicro] at hm
      | inverse p q e' v =>
        simp only [keysMicro] at hm
        cases hg : invMicro (phiOf p q) v <;> rw [hg] at hm <;> simp [Micro.lift] at hm
        split at hm <;> simp at hm
        exact ⟨_, _, _, _, _, _, hm.symm⟩
    · split at h <;> [cases h; (split at h <;> cases h)]
  · unfold modexpMicro at h
    split at h
    · rename_i m
      cases hm : powMicro o.a o.b o.m m <;> rw [hm] at h <;> simp [Micro.lift] at h
      exact ⟨_, h.symm⟩
    · split at h <;> cases h
  · unfold gcdCommandMicro at h
    split at h
    · rename_i x y
      cases hm : gcdMicro (x, y) <;> rw [hm] at h <;> simp [Micro.lift] at h
      exact ⟨_, h.symm⟩
    · cases h
  · unfold modinvMicro at h
    split at h
    · rename_i v
      cases hm : invMicro o.m v <;> rw [hm] at h <;> simp [Micro.lift] at h
      split at h <;> simp at h
      exact ⟨_, h.symm⟩
    · split at h <;> cases h
  · simp [zeroizeMicro] at h; exact h.symm

/-- A command that ends, from a state of the invariant, ends as its rule says (`EndingOk`). -/
theorem exec_ends {i : Instr} {s t : State} (hinv : s.Inv) (hr : s.RunsFree i) (h : exec i s = .next t)
    (hi : t.eng = .idle) :
    ∃ e rest, EndingOk s.operands i e ∧ t = s.afterBurst (encode i) (.finished e rest) := by
  obtain ⟨work, he, ha⟩ := hr
  obtain ⟨-, -, -, -, hw⟩ := hinv.busy _ _ he
  rw [decode?_encode] at hw
  rw [exec_busy he ha] at h
  rcases burst_keeps (fun draw w h => command_keeps i s.operands draw h) hw (s.quantum + 1) s.entropy with
    ⟨w', ds', hb, -⟩ | ⟨r, ds', hb, hq⟩
  · rw [hb] at h; cases h; simp [State.afterBurst] at hi
  · rw [hb] at h; cases h; exact ⟨r, ds', hq, rfl⟩

end Sys2Proof.Machine
end

