-- ==== Sys2Proof/Laws/HostPort.lean ====
section
/-! SUPPORT. What a host step can do, said once, and what it always leaves unchanged. -/

namespace Sys2Proof.Machine

/-- What a host step can do: answer a read, with a value or an unspecified one; answer a write after its effect on a
control register or a window word; or answer with ERROR. -/
theorem hostStep_cases (t : Txn) (s : State) :
    (∃ r, hostStep t s = s.respond r) ∨
    (∃ mk, hostStep t s = s.respondFree mk) ∨
    (∃ c v, t.accepted = true ∧ t.access = .write v ∧ decodeOffset t.off.toNat = .creg c ∧
      hostStep t s = (s.writeCReg c v).respond .writeOkay) ∨
    (∃ x j v, hostStep t s = (s.writeWord x j v).respond .writeOkay) := by
  obtain ⟨off, size, strobes, access⟩ := t
  unfold hostStep
  have hbus : (∃ r, s.busError access = s.respond r) ∨ (∃ mk, s.busError access = s.respondFree mk) := by
    cases access with
    | read => exact .inr ⟨_, rfl⟩
    | write v => exact .inl ⟨_, rfl⟩
  by_cases ha : (⟨off, size, strobes, access⟩ : Txn).accepted = true
  · rw [if_pos ha]
    cases hd : decodeOffset off.toNat with
    | creg c =>
      cases access with
      | read => exact .inl ⟨_, rfl⟩
      | write v => exact .inr (.inr (.inl ⟨c, v, ha, rfl, rfl, rfl⟩))
    | word x j =>
      cases access with
      | read =>
        simp only [State.hostAccess, State.hostReadWord]
        split
        · exact .inr (.inl ⟨_, rfl⟩)
        · exact .inl ⟨_, rfl⟩
      | write v => exact .inr (.inr (.inr ⟨x, j, v, rfl⟩))
    | unmapped => rcases hbus with h | h <;> [exact .inl h; exact .inr (.inl h)]
  · rw [if_neg ha]
    rcases hbus with h | h <;> [exact .inl h; exact .inr (.inl h)]

/-- What a write to a control register can do. -/
theorem writeCReg_cases (s : State) (c : CReg) (v : Word) :
    (s.writeCReg c v = s) ∨
    (s.writeCReg c v = { s with
      irqEn := v.getLsbD 1, abortPending := s.abortPending || (v.getLsbD 0 && s.busy) }) ∨
    (s.writeCReg c v = { s with status := s.status.clear v }) ∨
    (s.busy = true ∧ s.writeCReg c v = s.drop) ∨
    (c = .cmd ∧ s.busy = false ∧ s.writeCReg c v = s.accept v) ∨
    (s.busy = false ∧ s.writeCReg c v = { s with bits := v.setWidth 16 }) ∨
    (s.busy = false ∧ s.writeCReg c v = { s with rounds := v.setWidth 8 }) := by
  cases c <;> cases hb : s.busy <;> simp [State.writeCReg, hb]

/-- What a write to a window word can do. -/
theorem writeWord_cases (s : State) (x : BigReg) (j : Nat) (v : Word) :
    (s.writeWord x j v = s) ∨
    (s.busy = true ∧ s.writeWord x j v = s.drop) ∨
    (s.busy = false ∧ j < s.params.nw ∧ s.writeWord x j v = s.setBig x (setBigWord (s.big.get x) j v)) := by
  unfold State.writeWord
  split
  · rename_i h; exact .inr (.inl ⟨h, rfl⟩)
  · rename_i h
    split
    · rename_i hj; exact .inr (.inr ⟨by simpa using h, hj, rfl⟩)
    · exact .inl rfl

/-- An aligned offset of the big-number windows decodes to its register and word (20_memory.md R63, R64). -/
theorem decodeOffset_of_window {off i j : Nat} {x : BigReg} (hi : i ≤ 9) (hj : j < 128)
    (ho : off = 0x1000 + 0x200 * i + 4 * j) (hx : bigOfIndex i = some x) : decodeOffset off = .word x j := by
  have h1 : (off - 0x1000) / 0x200 = i := by omega
  have h2 : (off - 0x1000) % 0x200 / 4 = j := by omega
  have h3 : ¬ off ≤ 0x01C := by omega
  have h4 : 0x1000 ≤ off ∧ off ≤ 0x23FC := by omega
  simp only [decodeOffset, h3, h4, h1, h2, hx, if_false, if_true, and_self]

/-- The window of a register decodes to it. -/
theorem decodeOffset_word (x : BigReg) {j : Nat} (hj : j < 128) : decodeOffset (bigOffset x j) = .word x j :=
  decodeOffset_of_window (i := bigIndex x) (by cases x <;> decide) hj rfl (by cases x <;> rfl)

/-- The control registers stand at their offsets only (20_memory.md R63). -/
theorem cregOfOffset_eq {off : Nat} {c : CReg} (h : cregOfOffset off = some c) : off = cregOffset c := by
  unfold cregOfOffset at h
  split at h <;> cases h <;> rfl

theorem decodeOffset_eq_creg {off : Nat} {c : CReg} (h : decodeOffset off = .creg c) : off = cregOffset c := by
  unfold decodeOffset at h
  by_cases h1 : off ≤ 0x01C
  · rw [if_pos h1] at h
    cases hc : cregOfOffset off with
    | none => rw [hc] at h; cases h
    | some c' => rw [hc] at h; cases h; exact cregOfOffset_eq hc
  · rw [if_neg h1] at h
    by_cases h2 : 0x1000 ≤ off ∧ off ≤ 0x23FC
    · rw [if_pos h2] at h
      cases hb : bigOfIndex ((off - 0x1000) / 0x200) with
      | none => rw [hb] at h; cases h
      | some x => rw [hb] at h; cases h
    · rw [if_neg h2] at h; cases h

theorem Txn.rd_accepted (off : BitVec 16) : (Txn.rd off).accepted = (off.toNat % 4 == 0) := by
  simp [Txn.accepted, Txn.rd]

theorem Txn.wr_accepted (off : BitVec 16) (v : Word) : (Txn.wr off v).accepted = (off.toNat % 4 == 0) := by
  simp [Txn.accepted, Txn.wr]

/-- An aligned read, by what its offset decodes to. -/
theorem hostStep_rd (s : State) {off : BitVec 16} (h : off.toNat % 4 = 0) :
    hostStep (.rd off) s = s.hostAccess (decodeOffset off.toNat) .read := by
  unfold hostStep; rw [Txn.rd_accepted, h]; rfl

/-- An aligned write, by what its offset decodes to. -/
theorem hostStep_wr (s : State) {off : BitVec 16} (v : Word) (h : off.toNat % 4 = 0) :
    hostStep (.wr off v) s = s.hostAccess (decodeOffset off.toNat) (.write v) := by
  unfold hostStep; rw [Txn.wr_accepted, h]; rfl

/-- The offset of a window word is aligned and below `0x10000`. -/
theorem bigOffset_toNat (x : BigReg) {j : Nat} (hj : j < 128) :
    (BitVec.ofNat 16 (bigOffset x j)).toNat = bigOffset x j ∧ bigOffset x j % 4 = 0 := by
  have h3 : bigIndex x ≤ 9 := by cases x <;> decide
  refine ⟨?_, by unfold bigOffset; omega⟩
  rw [BitVec.toNat_ofNat, Nat.mod_eq_of_lt]
  unfold bigOffset; omega

/-- A read of a window word. -/
theorem hostStep_rd_word (s : State) (x : BigReg) {j : Nat} (hj : j < 128) :
    hostStep (.rd (BitVec.ofNat 16 (bigOffset x j))) s = s.hostReadWord x j := by
  obtain ⟨h1, h2⟩ := bigOffset_toNat x hj
  rw [hostStep_rd s (by rw [h1]; exact h2), h1, decodeOffset_word x hj]; rfl

/-- What a read of a window word can do: a reserved word reads 0, a word of a destination is unspecified, any other word
is exact. -/
theorem hostReadWord_cases (s : State) (x : BigReg) (j : Nat) :
    (s.params.nw ≤ j ∧ s.hostReadWord x j = s.respond (.readOkay 0)) ∨
    (j < s.params.nw ∧ x ∈ s.dst ∧ s.hostReadWord x j = s.respondFree .readOkay) ∨
    (j < s.params.nw ∧ x ∉ s.dst ∧ s.hostReadWord x j = s.respond (.readOkay (bigWord (s.big.get x) j))) := by
  unfold State.hostReadWord State.readWord
  by_cases hj : j < s.params.nw
  · by_cases hx : x ∈ s.dst
    · exact .inr (.inl ⟨hj, hx, if_pos ⟨hj, hx⟩⟩)
    · exact .inr (.inr ⟨hj, hx, by rw [if_neg (fun h => hx h.2), if_pos hj]⟩)
  · exact .inl ⟨Nat.le_of_not_lt hj, by rw [if_neg (fun h => hj h.1), if_neg hj]⟩

/-- A write of a window word. -/
theorem hostStep_wr_word (s : State) (x : BigReg) {j : Nat} (v : Word) (hj : j < 128) :
    hostStep (.wr (BitVec.ofNat 16 (bigOffset x j)) v) s = (s.writeWord x j v).respond .writeOkay := by
  obtain ⟨h1, h2⟩ := bigOffset_toNat x hj
  rw [hostStep_wr s v (by rw [h1]; exact h2), h1, decodeOffset_word x hj]; rfl

/-- A transaction that is not accepted gets ERROR (20_memory.md R62). -/
theorem hostStep_rejected (s : State) {t : Txn} (h : t.accepted = false) : hostStep t s = s.busError t.access := by
  unfold hostStep; rw [h]; rfl

/-- An accepted write is `Txn.wr` of its offset. -/
theorem Txn.eq_wr {t : Txn} {v : Word} (h : t.accepted = true) (ha : t.access = .write v) : t = .wr t.off v := by
  obtain ⟨off, size, strobes, access⟩ := t
  simp [Txn.accepted] at h
  simp [Txn.wr, h.1.1, h.1.2, show access = .write v from ha]

/-- BUSY is ENG being BUSY. -/
theorem State.busy_eq_true {s : State} : s.busy = true ↔ ∃ w work, s.eng = .busy w work := by
  unfold State.busy Engine.isBusy
  cases s.eng <;> simp

theorem State.busy_eq_false {s : State} : s.busy = false ↔ s.eng = .idle := by
  unfold State.busy Engine.isBusy
  cases s.eng <;> simp

/-- The fields no host step changes. -/
theorem hostStep_frame (t : Txn) (s : State) :
    (hostStep t s).params = s.params ∧ (hostStep t s).errcode = s.errcode ∧ (hostStep t s).draws = s.draws ∧
    (hostStep t s).entropy = s.entropy ∧ (hostStep t s).quantum = s.quantum ∧
    (hostStep t s).inputs = s.inputs ∧ (hostStep t s).freeEvents = s.freeEvents := by
  rcases hostStep_cases t s with ⟨r, h⟩ | ⟨mk, h⟩ | ⟨c, v, -, -, -, h⟩ | ⟨x, j, v, h⟩ <;> rw [h]
  · simp
  · simp
  · rcases writeCReg_cases s c v with h | h | h | ⟨-, h⟩ | ⟨-, -, h⟩ | ⟨-, h⟩ | ⟨-, h⟩ <;> rw [h] <;> simp
  · rcases writeWord_cases s x j v with h | ⟨-, h⟩ | ⟨-, -, h⟩ <;> rw [h] <;> simp

end Sys2Proof.Machine
end

