-- ==== Sys2Proof/Laws/PerInstr.lean ====
section
/-! SUPPORT. What holds of every command as syntax: it is well formed, and its word has its own OPCODE, in the range of
30_encoding.md R82, and RSVD = 0 (R80). -/

namespace Sys2Proof.Laws.Opcode

/-- The fields of a command's word (R80, R82). -/
def Statement (i : Instr) : Prop :=
  i.wf = true ∧ cmdOpcode (encode i) = opcodeOf i ∧ cmdRsvd (encode i) = 0 ∧ (opcodeOf i).toNat ≤ 0x07

theorem nop : Statement .nop := by unfold Statement; decide
theorem isPrime : Statement .isPrime := by unfold Statement; decide
theorem genPrime : Statement .genPrime := by unfold Statement; decide
theorem genKeys : Statement .genKeys := by unfold Statement; decide
theorem modexp : Statement .modexp := by unfold Statement; decide
theorem gcd : Statement .gcd := by unfold Statement; decide
theorem modinv : Statement .modinv := by unfold Statement; decide
theorem zeroize : Statement .zeroize := by unfold Statement; decide

end Sys2Proof.Laws.Opcode
end

