-- ==== Sys2Proof/Laws/Prime.lean ====
section
/-! SUPPORT. The Miller-Rabin test: what its squarings compute, that a prime passes every round, and that the test on a
list of answers is `MRw` on the witnesses they give (40_prime_testing.md R100, R101, R103). -/

namespace Sys2Proof.Machine

/-- The squarings accept exactly when one of them yields `n - 1`. -/
theorem squareLoop_iff (n : Nat) : ∀ j x, squareLoop n j x = true ↔ ∃ k, 1 ≤ k ∧ k ≤ j ∧ x ^ (2 ^ k) % n = (n - 1) := by
  intro j
  induction j with
  | zero => intro x; simp [squareLoop]
  | succ j ih =>
    intro x
    simp only [squareLoop, Bool.or_eq_true, beq_iff_eq, ih, modExp_eq]
    constructor
    · rintro (h | ⟨k, h1, h2, h3⟩)
      · exact ⟨1, le_refl _, by omega, by simpa using h⟩
      · refine ⟨k + 1, by omega, by omega, ?_⟩
        rw [← Nat.pow_mod, ← pow_mul] at h3
        rw [pow_succ, Nat.mul_comm]; exact h3
    · rintro ⟨k, h1, h2, h3⟩
      by_cases hk : k = 1
      · left; subst hk; simpa using h3
      · right
        refine ⟨k - 1, by omega, by omega, ?_⟩
        rw [← Nat.pow_mod, ← pow_mul]
        rw [show 2 * 2 ^ (k - 1) = 2 ^ k by rw [← pow_succ']; congr 1; omega]
        exact h3

/-- A square root of 1 modulo a prime is 1 or -1. -/
theorem sq_eq_one_cases {p : ℕ} [Fact p.Prime] {x : ZMod p} (h : x ^ 2 = 1) : x = 1 ∨ x = -1 := by
  have : (x - 1) * (x + 1) = 0 := by ring_nf; rw [h]; ring
  rcases mul_eq_zero.1 this with h | h
  · left; exact sub_eq_zero.1 h
  · right; exact eq_neg_of_add_eq_zero_left h

/-- A round accepts a prime whatever its witness (R103). -/
theorem roundAccepts_of_prime {p d r a : Nat} (hp : Nat.Prime p) (h5 : 5 ≤ p) (h : d * 2 ^ r = p - 1) (h1 : 2 ≤ a)
    (h2 : a ≤ p - 2) : roundAccepts p d r a = true := by
  have := Fact.mk hp
  have hz : (a : ZMod p) ≠ 0 := by
    intro h0; rw [ZMod.natCast_eq_zero_iff] at h0
    have := Nat.le_of_dvd (by omega) h0; omega
  have hf : (a : ZMod p) ^ (d * 2 ^ r) = 1 := by rw [h]; exact ZMod.pow_card_sub_one_eq_one hz
  have key : ∀ r, (a : ZMod p) ^ (d * 2 ^ r) = 1 → (a : ZMod p) ^ d = 1 ∨ ∃ k, k < r ∧ (a : ZMod p) ^ (d * 2 ^ k) = -1 := by
    intro r
    induction r with
    | zero => intro h; left; simpa using h
    | succ r ih =>
      intro h
      rw [pow_succ, ← mul_assoc, pow_mul] at h
      rcases sq_eq_one_cases h with h | h
      · rcases ih h with h | ⟨k, hk, h⟩
        · exact .inl h
        · exact .inr ⟨k, by omega, h⟩
      · exact .inr ⟨r, by omega, h⟩
  have hval : ∀ e, (a : ZMod p) ^ e = -1 → a ^ e % p = p - 1 := by
    intro e he
    have : ((a ^ e : ℕ) : ZMod p) = ((p - 1 : ℕ) : ZMod p) := by push_cast [Nat.cast_sub (by omega : 1 ≤ p)]; simpa using he
    rw [ZMod.natCast_eq_natCast_iff'] at this
    rw [this, Nat.mod_eq_of_lt (by omega)]
  unfold roundAccepts
  simp only [Bool.or_eq_true, beq_iff_eq, squareLoop_iff, modExp_eq]
  rcases key r hf with h3 | ⟨k, hk, h3⟩
  · left; left
    have : ((a ^ d : ℕ) : ZMod p) = ((1 : ℕ) : ZMod p) := by push_cast; exact h3
    rw [ZMod.natCast_eq_natCast_iff'] at this
    rw [this, Nat.mod_eq_of_lt (by omega)]
  · have := hval _ h3
    by_cases hk0 : k = 0
    · left; right; subst hk0; simpa using this
    · right
      refine ⟨k, by omega, by omega, ?_⟩
      rw [← Nat.pow_mod, ← pow_mul]; exact this

/-- `t` rounds with an answer for each: the verdict is that of all their witnesses. -/
theorem mrRounds_all (n d r : Nat) : ∀ t ds, t ≤ ds.length → ∃ rest, mrRounds n d r t ds =
    some (((ds.take t).map (drawRange 2 (n - 2))).all (roundAccepts n d r), rest) := by
  intro t
  induction t with
  | zero => intro ds _; exact ⟨ds, by simp [mrRounds]⟩
  | succ t ih =>
    intro ds h
    cases ds with
    | nil => simp at h
    | cons raw ds =>
      simp only [mrRounds, List.take_succ_cons, List.map_cons, List.all_cons]
      split_ifs with h1
      · obtain ⟨rest, hr⟩ := ih ds (by simpa using h); exact ⟨rest, by rw [hr, h1]; simp⟩
      · exact ⟨ds, by simp [h1]⟩

/-- The test on a list of answers agrees with `MRw` on the witnesses they give (R100). -/
theorem millerRabin_eq_mrw (n t : Nat) (ds : List Nat) (h : t ≤ ds.length) : ∃ rest,
    millerRabin n t ds = some (mrw n t ((ds.take t).map (drawRange 2 (n - 2))), rest) := by
  unfold millerRabin mrw
  split_ifs
  · exact ⟨_, rfl⟩
  · exact ⟨_, rfl⟩
  · exact ⟨_, rfl⟩
  · obtain ⟨rest, hr⟩ := mrRounds_all n (splitOdd n).1 (splitOdd n).2 t ds h
    refine ⟨rest, ?_⟩
    rw [hr, ← List.map_take, List.take_take, Nat.min_self]

end Sys2Proof.Machine
end

