-- ==== Sys2Proof/Tests/Slice0.lean ====
section
/-! SUPPORT. Tests on single steps, with the expected values of spec/95_test_vectors.md and of the rules, and for each
statement a concrete state that meets its hypotheses. W is 64, as in those vectors. -/

namespace Sys2Proof.Tests

open Sys2Proof Sys2Proof.Machine

/-! ### Small states -/

/-- The state after reset of a block with W = 64. -/
def base : State := { State.reset with params := ⟨64⟩ }

/-- The word `w` just accepted. -/
def accepted (w : Word) (s : State) : State := { s with eng := .busy w .start, cmd := w }

/-- Command `i` just accepted, with draws on offer to an engine step of at most `q + 1` micro-operations. -/
def ready (i : Instr) (ds : List Nat) (q : Nat) (s : State) : State := (accepted (encode i) s).offer ds q

/-- The operands A, B and M. -/
def load (a b m : Nat) : State := { base with big := { base.big with a := a, b := b, m := m } }

/-- BITS and ROUNDS. -/
def sized (bits : BitVec 16) (rounds : BitVec 8) : State := { base with bits := bits, rounds := rounds }

/-- An abort requested. -/
def aborting (s : State) : State := { s with abortPending := true }

/-- The events to come. -/
def facing (es : List Event) (s : State) : State := { s with inputs := es }

/-- The next state of an outcome. -/
def next? : Host.Outcome State Fault Refusal → Option State
  | .next t => some t
  | .fault _ => none
  | .refused _ => none

/-- Every test of a step asks for `some` of the values it expects. -/
def seen {α : Type} (o : Host.Outcome State Fault Refusal) (f : State → α) : Option α := (next? o).map f

/-- The state after a step of `exec`, which always answers one. -/
def after (i : Instr) (s : State) : State := s.runCommand (match i with
  | .nop => nopMicro
  | .isPrime => isPrimeMicro
  | .genPrime => genPrimeMicro
  | .genKeys => genKeysMicro
  | .modexp => modexpMicro
  | .gcd => gcdCommandMicro
  | .modinv => modinvMicro
  | .zeroize => zeroizeMicro)

theorem exec_after (i : Instr) (s : State) : exec i s = .next (after i s) := by cases i <;> rfl

/-! ### Ill-formed input is refused -/

theorem test_params_multiple : Params.legal ⟨80⟩ = false := by decide
theorem test_params_low : Params.legal ⟨32⟩ = false := by decide
theorem test_params_high : Params.legal ⟨4128⟩ = false := by decide
theorem test_params_legal : Params.legal ⟨64⟩ = true ∧ Params.legal ⟨4096⟩ = true := by decide
theorem test_txn_size : Txn.accepted ⟨0x014, 1, 0xF, .write 9⟩ = false := by decide
theorem test_txn_strobes : Txn.accepted ⟨0x014, 4, 0x7, .write 9⟩ = false ∧ Txn.accepted ⟨0x014, 4, 0x3, .read⟩ = false :=
  by decide
theorem test_txn_alignment : Txn.accepted (.rd 0x002) = false := by decide
theorem test_txn_good : Txn.accepted (.rd 0x004) = true ∧ Txn.accepted (.wr 0xFFFC 0) = true := by decide
theorem test_word_reserved_bits : decode 0x80000003 = .error .reservedBits := by rfl
theorem test_word_reserved_opcode : decode 0x00000008 = .error .reservedOpcode := by rfl
theorem test_instr_wf : [Instr.nop, .isPrime, .genPrime, .genKeys, .modexp, .gcd, .modinv, .zeroize].all Instr.wf := by
  decide

/-! ### Every command's word, written out from 30_encoding.md R80 and R82 -/

theorem test_decode_nop : decode 0b00000000000000000000000000000000#32 = .ok .nop := by rfl
theorem test_decode_isPrime : decode 0b00000000000000000000000000000001#32 = .ok .isPrime := by rfl
theorem test_decode_genPrime : decode 0b00000000000000000000000000000010#32 = .ok .genPrime := by rfl
theorem test_decode_genKeys : decode 0b00000000000000000000000000000011#32 = .ok .genKeys := by rfl
theorem test_decode_modexp : decode 0b00000000000000000000000000000100#32 = .ok .modexp := by rfl
theorem test_decode_gcd : decode 0b00000000000000000000000000000101#32 = .ok .gcd := by rfl
theorem test_decode_modinv : decode 0b00000000000000000000000000000110#32 = .ok .modinv := by rfl
theorem test_decode_zeroize : decode 0b00000000000000000000000000000111#32 = .ok .zeroize := by rfl
theorem test_decodeTableWord : decodeTableWord 32 0x00000006 = some .modinv ∧ decodeTableWord 32 0x00000104 = none := by
  decide

/-! ### Single engine steps -/

/-- V-CC-1. -/
theorem test_nop_clears_errcode :
    seen (exec .nop (ready .nop [] 0 { base with errcode := 0x04 })) (fun t => (t.errcode, t.readCReg .status)) =
      some (0x00, 0x00000002) := by decide

/-- V-PT-8: 25 passes on liars 7, 18 (draws `2 + raw mod 22`). -/
theorem test_isPrime_liars :
    seen (exec .isPrime (ready .isPrime [5, 16, 5, 16, 5] 200 (load 25 0 0)))
      (fun t => (t.status.done, t.status.prime, t.entropy)) = some (true, true, []) := by decide +kernel

/-- V-PT-10: 25 fails on witness 2 and uses one draw. -/
theorem test_isPrime_rejects :
    seen (exec .isPrime (ready .isPrime [0, 5] 200 (load 25 0 0)))
      (fun t => (t.status.done, t.status.prime, t.draws)) = some (true, false, 1) := by decide +kernel

/-- V-PG-4: 33 is rejected on its first witness, then 37 passes. -/
theorem test_genPrime_retries :
    seen (exec .genPrime (ready .genPrime [0, 0, 4, 0, 0, 0, 0, 0] 500 (sized 6 5)))
      (fun t => (t.big.r, t.errcode, t.draws)) = some (37, 0x00, 8) := by decide +kernel

/-- V-PG-11: BAD_BITS goes before BAD_ROUNDS. -/
theorem test_genPrime_priority :
    seen (exec .genPrime (ready .genPrime [] 0 (sized 0 0))) (fun t => (t.errcode, t.big.r)) = some (0x02, 0) := by
  decide

/-- V-KG-1. -/
theorem test_genKeys_example :
    seen (exec .genKeys (ready .genKeys [61, 0, 0, 0, 0, 0, 53, 0, 0, 0, 0, 0] 500 (sized 12 5)))
      (fun t => (t.big, t.errcode)) = some (⟨0, 0, 0, 0, 61, 53, 3233, 3120, 65537, 2753⟩, 0x00) := by decide +kernel

/-- V-KG-4: the fallback exponent, with one round for each prime; the `e` draws are 4, then 3. -/
theorem test_genKeys_fallback :
    seen (exec .genKeys (ready .genKeys [917519, 0, 524309, 0, 2, 1] 500 (sized 40 1)))
      (fun t => (t.big.n, t.big.phi, t.big.e, t.big.d)) =
        some (481063469371, 481062027544, 3, 320708018363) := by decide +kernel

/-- V-MA-1. -/
theorem test_modexp_example :
    seen (exec .modexp (ready .modexp [] 100 (load 65 17 3233))) (fun t => (t.big.r, t.errcode)) =
      some (2790, 0x00) := by decide +kernel

/-- V-MA-2. -/
theorem test_modexp_zero_to_zero :
    seen (exec .modexp (ready .modexp [] 100 (load 0 0 7))) (fun t => (t.big.r, t.status.done)) =
      some (1, true) := by decide +kernel

/-- V-MA-12. -/
theorem test_gcd_wide :
    seen (exec .gcd (ready .gcd [] 100 (load (2 ^ 64 - 1) (2 ^ 32 - 1) 0))) (fun t => t.big.r) =
      some 4294967295 := by decide +kernel

/-- V-MA-12: `gcd(0, 12)`. -/
theorem test_gcd_zero :
    seen (exec .gcd (ready .gcd [] 100 (load 0 12 0))) (fun t => (t.big.r, t.errcode)) = some (12, 0x00) := by
  decide +kernel

/-- V-MA-13. -/
theorem test_modinv_example :
    seen (exec .modinv (ready .modinv [] 100 (load 17 0 3120))) (fun t => (t.big.r, t.errcode)) =
      some (2753, 0x00) := by decide +kernel

/-- V-MA-17: NO_INVERSE zeroes R. -/
theorem test_modinv_none :
    seen (exec .modinv (ready .modinv [] 100 { load 6 0 9 with big := ⟨6, 0, 9, 77, 0, 0, 0, 0, 0, 0⟩ }))
      (fun t => (t.big.r, t.errcode, t.status.error)) = some (0, 0x05, true) := by decide +kernel

/-- V-CC-2. -/
theorem test_zeroize_keeps_bits :
    seen (exec .zeroize (ready .zeroize [] 0
      { sized 12 5 with big := ⟨1, 2, 3, 4, 61, 53, 3233, 3120, 65537, 2753⟩, status := ⟨false, false, true, false⟩ }))
      (fun t => (t.big, t.status.prime, t.bits, t.rounds)) = some (BigRegs.zero, false, 12, 5) := by decide

/-- 43_control_commands.md R161: an aborted ZEROIZE clears too. -/
theorem test_zeroize_aborted :
    seen (exec .zeroize (aborting (ready .zeroize [] 0 { base with big := ⟨1, 2, 3, 4, 5, 6, 7, 8, 9, 10⟩ })))
      (fun t => (t.big, t.errcode)) = some (BigRegs.zero, 0x07) := by decide

/-- V-CC-3: GEN_KEYS of 6 bits whose draws all give 5 still runs, and an abort ends it. -/
theorem test_genKeys_hangs :
    seen (exec .genKeys (ready .genKeys [0, 0, 0, 0, 0, 0, 0, 0, 0, 0] 500 (sized 6 1)))
      (fun t => (t.busy, seen (exec .genKeys (aborting t)) (fun u => (u.readCReg .status, u.errcode, u.big.p)))) =
        some (true, some (0x00000006, 0x07, 0)) := by decide +kernel

/-- V-EN-3. -/
theorem test_illegal_before_modulus :
    seen (engineStep (accepted 0x00000104 base)) (fun t => (t.errcode, t.cmd)) = some (0x01, 0x00000104) := by decide

/-- A withheld draw leaves the command running (70_reset_and_hazards.md R213). -/
theorem test_isPrime_waits :
    seen (exec .isPrime (ready .isPrime [0] 200 (load 97 0 0))) (fun t => (t.busy, t.draws)) = some (true, 1) := by
  decide +kernel

/-! ### Single host steps -/

/-- V-EN-6. -/
theorem test_accept_isPrime :
    (hostStep (.wr 0x010 1) { base with errcode := 0x04, status := ⟨true, true, true, false⟩ }).status =
      ⟨false, false, false, false⟩ := by decide

/-- V-MEM-2: a reserved word reads 0 and ignores the write. -/
theorem test_reserved_word :
    (hostStep (.rd 0x1008) base).response = some (.readOkay 0) ∧
    (hostStep (.wr 0x1008 0xFFFFFFFF) base).big = BigRegs.zero := by decide

/-- V-MEM-9. -/
theorem test_id_param :
    (hostStep (.rd 0x000) base).response = some (.readOkay 0x52534B47) ∧
    (hostStep (.rd 0x004) base).response = some (.readOkay 0x00000040) ∧
    (hostStep (.rd 0x004) State.reset).response = some (.readOkay 0x00000800) := by decide

/-- V-MEM-10, V-MEM-11. -/
theorem test_bits_rounds :
    (hostStep (.rd 0x014) (hostStep (.wr 0x014 0xFFFF1234) base)).response = some (.readOkay 0x00001234) ∧
    (hostStep (.rd 0x018) (hostStep (.wr 0x018 0x00000107) base)).response = some (.readOkay 0x00000007) := by decide

/-- V-MEM-14. -/
theorem test_w1c :
    (hostStep (.wr 0x00C 0x00000010) { base with status := ⟨true, false, false, true⟩ }).status =
      ⟨true, false, false, false⟩ := by decide

/-- V-MEM-12: three dropped writes. -/
theorem test_dropped :
    let s := accepted 3 base
    let t := hostStep (.wr 0x010 0) (hostStep (.wr 0x1000 1) (hostStep (.wr 0x014 9) s))
    t.bits = 0 ∧ t.big.a = 0 ∧ t.cmd = 3 ∧ t.status.overrun = true := by decide

/-- Program 3, line 10: CTRL reads IRQ_EN only; the write requests an abort and keeps IRQ_EN. -/
theorem test_abort_write :
    let s := { accepted 3 base with irqEn := true }
    (hostStep (.rd 0x008) s).response = some (.readOkay 0x00000002) ∧
    (hostStep (.wr 0x008 0x00000003) s).abortPending = true ∧ (hostStep (.wr 0x008 0x00000003) s).irqEn = true := by
  decide

/-! ### Host programs and octets -/

/-- V-MEM-1. -/
theorem test_loadbig :
    ((PseudoStmt.loadbig .a 0x0000000100000002).expand ⟨64⟩).filterMap (HostStmt.txn []) =
      [.wr 0x1000 0x00000002, .wr 0x1004 0x00000001] := by decide

/-- Program 3, lines 4 and 10. -/
theorem test_ack_abort :
    (PseudoStmt.ack.expand ⟨64⟩).filterMap (HostStmt.txn []) = [.wr 0x00C 0x00000016] ∧
    ((PseudoStmt.abort 0).expand ⟨64⟩).filterMap (HostStmt.txn [(0, 2)]) = [.rd 0x008, .wr 0x008 0x00000003] := by
  decide

/-- WAIT goes back while BUSY, and ends when BUSY = 0. -/
theorem test_wait :
    let h : HostMachine := ⟨waitStmts 0 7, 2, [(0, 1)]⟩
    (h.turn base).1.pc = 0 ∧ (({ h with vars := [(0, 2)] } : HostMachine).turn base).1.pc = 3 := by decide

/-- V-MEM-3, V-MEM-5. -/
theorem test_octets :
    octetsToNat [0x01, 0x02, 0x03, 0x04, 0x05] = 4328719365 ∧ natToOctets 2 2790 = [0x0A, 0xE6] := by decide

/-! ### A program from reset -/

/-- The host's first command word, written after reset, and the engine step after it (log 9). -/
theorem test_first_command :
    ((next? (step (facing [.host (.wr 0x010 4), .engine [] 9] State.reset))).bind (fun t => next? (step t))).map
      (fun t => (t.errcode, t.cmd, t.busy)) = some (0x04, 0x00000004, false) := by decide +kernel

theorem test_withFetchWord :
    seen (step (State.reset.withFetchWord 32 7)) (fun t => (t.status.done, t.cmd, t.errcode)) =
      some (true, 0x00000007, 0x00) := by decide +kernel

/-! ### Witnesses: states that meet the hypotheses of each statement -/

/-- The invariant of a state whose registers are below `2^W` and whose command, if any, has just been accepted. -/
theorem inv_of {s : State} (h1 : s.params.legal = true) (h2 : BigReg.all.all (fun x => s.big.get x < 2 ^ s.params.w))
    (h3 : s.errcode.toNat ≤ 7) (h4 : s.status = ⟨false, false, false, false⟩) (h5 : s.abortPending = false)
    (h6 : s.eng = .idle ∨ s.eng = .busy s.cmd .start) : s.Inv := by
  refine ⟨h1, ?_, h3, by simp [h4], fun _ => h5, ?_⟩
  · intro x
    simp only [List.all_eq_true, decide_eq_true_eq] at h2
    exact h2 x (by cases x <;> decide)
  · intro w work hw
    rcases h6 with h6 | h6
    · rw [h6] at hw; cases hw
    · rw [h6] at hw; cases hw
      exact ⟨rfl, by simp [h4], by simp [h4], by simp [h4], trivial⟩

theorem witness_OnlyTheExactWordSelects : 7 < (0x00000008 : Word).toNat ∧ decode? 0x00000008 = none := by decide

theorem witness_IllegalWord_rsvd : ∃ s : State, s.eng = .busy 0x00000100 .start ∧ s.abortPending = false ∧
    (0x00000100 : Word).toNat / 256 ≠ 0 := ⟨accepted 0x00000100 base, rfl, rfl, by decide⟩
theorem witness_IllegalWord_opcode : ∃ s : State, s.eng = .busy 0x00000008 .start ∧ s.abortPending = false ∧
    8 ≤ (0x00000008 : Word).toNat % 256 := ⟨accepted 0x00000008 base, rfl, rfl, by decide⟩

theorem witness_CmdWriteAccepts : base.eng = .idle := rfl

theorem witness_StepRunsTheDecodedCommand : ∃ s : State, s.inputs = .engine [3] 9 :: [] ∧
    s.eng = .busy 0x00000004 .start ∧ decode 0x00000004 = .ok .modexp :=
  ⟨facing [.engine [3] 9] (accepted 4 base), rfl, rfl, rfl⟩

theorem witness_StepWhenIdle : ∃ s : State, s.inputs = .engine [3] 9 :: [] ∧ s.eng = .idle :=
  ⟨facing [.engine [3] 9] base, rfl, rfl⟩
theorem witness_StepOnHostEvents : ∃ s : State, s.inputs = .host (.rd 0x004) :: [] :=
  ⟨facing [.host (.rd 0x004)] base, rfl⟩

theorem witness_EngineChanges_starts : ∃ s t : State, step s = .next t ∧ s.eng = .idle ∧ t.eng = .busy 4 .start :=
  ⟨facing [.host (.wr 0x010 4)] base, _, rfl, rfl, rfl⟩
theorem witness_EngineChanges_ends : ∃ s t : State, step s = .next t ∧ s.eng = .busy 0 .start ∧ t.eng = .idle :=
  ⟨facing [.engine [] 0] (accepted 0 base), _, rfl, rfl, rfl⟩
theorem witness_EngineChanges_stays : ∃ s t : State, step s = .next t ∧ s.eng = .busy 5 .start ∧
    t.eng = .busy 5 (.euclid 0 0) := ⟨facing [.engine [] 0] (accepted 5 base), _, rfl, rfl, rfl⟩

theorem witness_WidthNeverChanges : ∃ s t : State, step s = .next t ∧ s.params = ⟨64⟩ :=
  ⟨facing [.reset] base, _, rfl, rfl⟩

theorem witness_StepKeepsInvariant : ∃ s t : State, s.Inv ∧ step s = .next t ∧ t.busy = true :=
  ⟨facing [.host (.wr 0x010 3)] base, _, inv_of rfl (by decide) (by decide) rfl rfl (.inl rfl), rfl, rfl⟩

theorem witness_AddressDecode_words : 9 < 10 ∧ 127 < 128 ∧ decodeOffset (0x1000 + 0x200 * 9 + 4 * 127) = .word .d 127 ∧
    decodeOffset 0x1000 = .word .a 0 := by decide
theorem witness_AddressDecode_edges : decodeOffset 0x01C = .creg .errcode ∧ decodeOffset 0x020 = .unmapped ∧
    decodeOffset 0x0FFC = .unmapped ∧ decodeOffset 0x23FC = .word .d 127 ∧ decodeOffset 0x2400 = .unmapped ∧
    decodeOffset 0xFFFC = .unmapped := by decide
theorem witness_AddressDecode_mapped : (0x23FC : BitVec 16).toNat % 4 = 0 ∧ 0x1000 ≤ (0x23FC : BitVec 16).toNat ∧
    (0x23FC : BitVec 16).toNat ≤ 0x23FC ∧ (0x01C : BitVec 16).toNat ≤ 0x01C := by decide
theorem witness_AddressDecode_unmapped : (0x020 : BitVec 16).toNat % 4 = 0 ∧ 0x020 ≤ (0x020 : BitVec 16).toNat ∧
    (0x020 : BitVec 16).toNat ≤ 0x0FFC ∧ 0x2400 ≤ (0x2400 : BitVec 16).toNat := by decide

theorem witness_RejectedAccess_read : (2 : Nat) ≠ 4 ∧ (0x0FFC : BitVec 16).toNat ≤ 0x0FFC ∧
    (hostStep ⟨0x0FFC, 4, 0xF, .read⟩ base).freeReads = 1 ∧ (hostStep ⟨0x01C, 4, 0xF, .read⟩ base).freeReads = 0 ∧
    (hostStep ⟨0x01C, 4, 0x7, .read⟩ base).freeReads = 1 := by decide
theorem witness_RejectedAccess_write : (0x7 : BitVec 4) ≠ 0xF ∧
    (hostStep ⟨0x014, 4, 0x7, .write 9⟩ base).bits = 0 ∧ (hostStep ⟨0x014, 4, 0xF, .write 9⟩ base).bits = 9 := by decide

theorem witness_WritesWhileBusy : ∃ s : State, s.eng = .busy 3 .start ∧ 0x1000 ≤ (0x23FC : BitVec 16).toNat ∧
    (0x23FC : BitVec 16).toNat ≤ 0x23FC ∧ (0x23FC : BitVec 16).toNat % 4 = 0 :=
  ⟨accepted 3 base, rfl, by decide, by decide, by decide⟩
theorem witness_WritesWhileBusy_low : ∃ s : State, s.eng = .busy 3 .start ∧ (hostStep (.wr 0x1000 1) s).status.overrun ∧
    ¬ (hostStep (.wr 0x000 1) s).status.overrun := ⟨accepted 3 base, rfl, by decide, by decide⟩

theorem witness_IdAndParam : State.reset.params.w < 65536 := by decide
theorem witness_BitsAndRoundsReadBack : base.eng = .idle := rfl
theorem witness_CtrlReadsAndWrites_idle : base.eng = .idle := rfl
theorem witness_CtrlReadsAndWrites_busy : (accepted 7 base).eng = .busy 7 .start := rfl

theorem witness_WordWrite_storage : base.eng = .idle ∧ 1 < 128 ∧ 1 < base.params.w / 32 := by decide
theorem witness_WordWrite_reserved : base.eng = .idle ∧ 2 < 128 ∧ base.params.w / 32 ≤ 2 := by decide

theorem witness_WordReads : ∃ s : State, s.eng = .busy 4 .start ∧ 127 < 128 ∧
    ∀ (w : Word) (work : Work) (i : Instr), s.eng = .busy w work → decode w = .ok i → .a ∉ dstOf i := by
  refine ⟨accepted 4 base, rfl, by decide, ?_⟩
  intro w work i h hd
  cases h
  cases hd
  decide
/-- A reserved word of a destination window reads 0 while BUSY (20_memory.md R64), and draws no free value. -/
theorem witness_WordReads_reserved : ∃ s : State, s.eng = .busy 4 .start ∧ .r ∈ dstOf .modexp ∧ s.params.w / 32 ≤ 2 ∧
    (hostStep (.rd 0x1608) s).response = some (.readOkay 0) ∧ (hostStep (.rd 0x1608) s).freeReads = 0 ∧
    (hostStep (.rd 0x1604) s).freeReads = 1 :=
  ⟨accepted 4 base, rfl, by decide, by decide, by decide, by decide, by decide⟩
theorem witness_WordReads_values :
    (hostStep (.rd 0x1004) { accepted 4 base with big := ⟨0x0000000700000003, 0, 0, 0, 0, 0, 0, 0, 0, 0⟩ }).response =
      some (.readOkay 7) ∧ (hostStep (.rd 0x1008) base).response = some (.readOkay 0) := by decide

theorem witness_DestinationReads : ∃ s : State, s.eng = .busy 4 .start ∧ decode 4 = .ok .modexp ∧
    .r ∈ dstOf .modexp ∧ 1 < 128 ∧ 1 < s.params.w / 32 :=
  ⟨accepted 4 base, rfl, rfl, by decide, by decide, by decide⟩

theorem witness_DestinationSets : ∃ s : State, s.eng = .busy 8 .start ∧ decode? 8 = none :=
  ⟨accepted 8 base, rfl, rfl⟩

theorem witness_OperandsAreFrozen : ∃ s : State, s.eng = .busy 4 .start ∧ (hostStep (.wr 0x1000 9) s).big.a = 0 :=
  ⟨accepted 4 base, rfl, by decide⟩

theorem witness_BigNumberSum : 64 % 32 = 0 ∧ 2 ^ 64 - 1 < 2 ^ 64 := by decide

theorem witness_LoadbigLoads : base.eng = .idle ∧ base.params.legal = true ∧ base.big.get .a < 2 ^ base.params.w ∧
    2 ^ 64 - 1 < 2 ^ base.params.w := by decide

theorem witness_OctetsRoundTrip : 255 < 256 ^ 1 ∧ natToOctets 1 255 = [0xFF] := by decide

theorem witness_InterruptLine_enable : ∃ s : State, s.status.done = true ∧ (hostStep (.wr 0x008 2) s).irq = true :=
  ⟨{ base with status := ⟨true, false, false, false⟩ }, rfl, by decide⟩
theorem witness_InterruptLine_ack : ∃ s : State, s.irq = true ∧ (0x16 : Word).getLsbD 1 = true ∧
    (hostStep (.wr 0x00C 0x16) s).irq = false :=
  ⟨{ base with status := ⟨true, false, false, false⟩, irqEn := true }, rfl, by decide, by decide⟩
theorem witness_InterruptLine_start : ∃ s : State, s.irq = true ∧ s.eng = .idle ∧ (hostStep (.wr 0x010 0) s).irq = false :=
  ⟨{ base with status := ⟨true, false, false, false⟩, irqEn := true }, rfl, rfl, by decide⟩

theorem witness_PrimeFlag_accept : ∃ s t : State, step s = .next t ∧ t.status.prime ≠ s.status.prime :=
  ⟨facing [.host (.wr 0x010 1)] { base with status := ⟨true, false, true, false⟩ }, _, rfl, by decide⟩
theorem witness_PrimeFlag_zeroize : ∃ s t : State, step s = .next t ∧ t.status.prime ≠ s.status.prime :=
  ⟨facing [.engine [] 0] (accepted 7 { base with status := ⟨false, false, true, false⟩ }), _, rfl, by decide⟩

theorem witness_UnfinishedStepFrame : ∃ s t : State, exec .gcd s = .next t ∧ t.eng ≠ .idle ∧
    s.eng = .busy (encode .gcd) .start := ⟨ready .gcd [] 0 (load 12 8 0), _, rfl, by decide, rfl⟩

theorem witness_EngineStepFrame : ∃ s t : State, s.eng = .busy (encode .genPrime) .start ∧ exec .genPrime s = .next t ∧
    .a ∉ dstOf .genPrime := ⟨ready .genPrime [] 0 (sized 6 5), _, rfl, exec_after _ _, by decide⟩

theorem witness_CompletionFlags_check : ∃ s t : State, s.eng = .busy (encode .modexp) .start ∧
    exec .modexp s = .next t ∧ t.eng = .idle ∧ t.errcode = 0x04 :=
  ⟨ready .modexp [] 0 base, _, rfl, exec_after _ _, by decide, by decide⟩
theorem witness_CompletionFlags_late : ∃ s t : State, s.eng = .busy (encode .modinv) .start ∧
    exec .modinv s = .next t ∧ t.eng = .idle ∧ t.errcode = 0x05 :=
  ⟨ready .modinv [] 20 (load 6 0 9), _, rfl, exec_after _ _, by decide +kernel, by decide +kernel⟩
theorem witness_EngineSlicing : ∃ s t : State, s.RunsFree .gcd ∧ exec .gcd (s.withQuantum 0) = .next t ∧
    t.busy = true := ⟨ready .gcd [] 0 (load 12 8 0), _, ⟨_, rfl, rfl⟩, exec_after _ _, by decide⟩

theorem witness_AbortDue (i : Instr) : (aborting (accepted (encode i) base)).AbortDue i := ⟨_, rfl, rfl⟩
theorem witness_AbortEnding_illegal : ∃ s : State, s.eng = .busy 8 .start ∧ s.abortPending = true ∧ decode? 8 = none :=
  ⟨aborting (accepted 8 base), rfl, rfl, rfl⟩

theorem witness_Started (i : Instr) : (accepted (encode i) base).Started i := ⟨rfl, rfl⟩
theorem witness_RunsFree (i : Instr) : (accepted (encode i) base).RunsFree i := ⟨_, rfl, rfl⟩

theorem witness_CheckPriority_genPrime : (accepted (encode .genPrime) (sized 65 5)).Started .genPrime ∧
    base.params.w < (65 : BitVec 16).toNat ∧ (1 : BitVec 16).toNat < 2 := ⟨⟨rfl, rfl⟩, by decide, by decide⟩
theorem witness_CheckPriority_genPrime_rounds : ∃ s : State, s.Started .genPrime ∧ 2 ≤ s.bits.toNat ∧
    s.bits.toNat ≤ s.params.w ∧ s.rounds = 0 :=
  ⟨accepted (encode .genPrime) (sized 64 0), ⟨rfl, rfl⟩, by decide, by decide, rfl⟩
theorem witness_CheckPriority_genKeys : ∃ s : State, s.Started .genKeys ∧ s.bits.toNat % 2 = 1 ∧ s.rounds = 0 :=
  ⟨accepted (encode .genKeys) (sized 7 0), ⟨rfl, rfl⟩, by decide, rfl⟩
theorem witness_CheckPriority_genKeys_rounds : ∃ s : State, s.Started .genKeys ∧ 6 ≤ s.bits.toNat ∧
    s.bits.toNat ≤ s.params.w ∧ s.bits.toNat % 2 = 0 ∧ s.rounds = 0 :=
  ⟨accepted (encode .genKeys) (sized 6 0), ⟨rfl, rfl⟩, by decide, by decide, by decide, rfl⟩
theorem witness_CheckPriority_isPrime : ∃ s : State, s.Started .isPrime ∧ s.rounds = 0 :=
  ⟨accepted (encode .isPrime) (sized 0 0), ⟨rfl, rfl⟩, rfl⟩
theorem witness_CheckPriority_modulus : (accepted (encode .modexp) base).Started .modexp ∧
    (accepted (encode .modinv) base).Started .modinv ∧ base.big.m = 0 := ⟨⟨rfl, rfl⟩, ⟨rfl, rfl⟩, rfl⟩

theorem witness_CommandsEnd : ∃ s : State, s.Started .isPrime ∧
    ending .isPrime s.operands s.entropy = some (.success (.verdict true), []) :=
  ⟨ready .isPrime [5, 16, 5, 16, 5] 0 (load 25 0 0), ⟨rfl, rfl⟩, by decide +kernel⟩
theorem witness_CommandsWait : ∃ s : State, s.Started .genPrime ∧ ending .genPrime s.operands s.entropy = none :=
  ⟨ready .genPrime [8, 0, 8] 0 (sized 4 5), ⟨rfl, rfl⟩, by decide +kernel⟩

theorem witness_Modexp : ∃ s : State, s.Started .modexp ∧ s.big.m ≠ 0 ∧ bitlen s.big.b + 1 ≤ s.quantum :=
  ⟨ready .modexp [] 6 (load 65 17 3233), ⟨rfl, rfl⟩, by decide, by decide +kernel⟩
theorem witness_Gcd : ∃ s : State, s.Started .gcd ∧ s.big.b + 1 ≤ s.quantum :=
  ⟨ready .gcd [] 1 (load 12 0 0), ⟨rfl, rfl⟩, by decide⟩
theorem witness_Modinv_exists : ∃ s : State, s.Started .modinv ∧ s.big.m ≠ 0 ∧ s.big.m + 1 ≤ s.quantum ∧
    Nat.gcd (s.big.a % s.big.m) s.big.m = 1 :=
  ⟨ready .modinv [] 2 (load 5 0 1), ⟨rfl, rfl⟩, by decide, by decide, by decide⟩
theorem witness_Modinv_none : ∃ s : State, s.Started .modinv ∧ s.big.m ≠ 0 ∧ s.big.m + 1 ≤ s.quantum ∧
    Nat.gcd (s.big.a % s.big.m) s.big.m ≠ 1 :=
  ⟨ready .modinv [] 10 (load 6 0 9), ⟨rfl, rfl⟩, by decide, by decide, by decide⟩

theorem witness_IsPrimeCorner : ∃ s : State, s.Started .isPrime ∧ s.rounds ≠ 0 ∧ 1 ≤ s.quantum ∧
    (s.big.a % 2 = 0 ∧ 4 ≤ s.big.a) := ⟨ready .isPrime [] 1 (load 4 0 0), ⟨rfl, rfl⟩, by decide, by decide, by decide⟩
theorem witness_IsPrimeCorner_prime : ∃ s : State, s.Started .isPrime ∧ s.rounds ≠ 0 ∧ 1 ≤ s.quantum ∧ s.big.a = 3 :=
  ⟨ready .isPrime [] 1 (load 3 0 0), ⟨rfl, rfl⟩, by decide, by decide, rfl⟩
theorem witness_IsPrimeCorner_low : ∃ s : State, s.Started .isPrime ∧ s.rounds ≠ 0 ∧ 1 ≤ s.quantum ∧ s.big.a ≤ 1 :=
  ⟨ready .isPrime [] 1 (load 1 0 0), ⟨rfl, rfl⟩, by decide, by decide, by decide⟩
theorem witness_IsPrimeVerdict : ∃ s : State, s.Started .isPrime ∧ s.rounds ≠ 0 ∧
    s.rounds.toNat ≤ s.entropy.length ∧ Nat.Prime s.big.a :=
  ⟨ready .isPrime [0, 1, 0, 1, 0] 0 (load 97 0 0), ⟨rfl, rfl⟩, by decide, by decide,
    by show Nat.Prime 97; norm_num⟩
theorem witness_GenPrimeEveryPrime : ∃ s : State, s.Started .genPrime ∧ 2 ≤ s.bits.toNat ∧ s.bits.toNat ≤ s.params.w ∧
    s.rounds ≠ 0 ∧ Nat.Prime 61 ∧ 2 ^ (s.bits.toNat - 1) < 61 ∧ 61 < 2 ^ s.bits.toNat ∧
    s.entropy = 61 :: [0, 0, 0, 0, 0] ∧ s.rounds.toNat ≤ [0, 0, 0, 0, 0].length :=
  ⟨ready .genPrime [61, 0, 0, 0, 0, 0] 0 (sized 6 5), ⟨rfl, rfl⟩, by decide, by decide, by decide, by norm_num,
    by decide, by decide, rfl, by decide⟩
theorem witness_GenPrimeResultSet : ∃ s t : State, s.Inv ∧ s.RunsFree .genPrime ∧ exec .genPrime s = .next t ∧
    t.eng = .idle ∧ t.status.error = false :=
  ⟨ready .genPrime [61, 0, 0, 0, 0, 0] 200 (sized 6 5), _,
    inv_of rfl (by decide) (by decide) rfl rfl (.inr rfl), ⟨_, rfl, rfl⟩, exec_after _ _, by decide +kernel,
    by decide +kernel⟩
theorem witness_GenPrimeCanHang : ∃ s : State, s.Started .genPrime ∧ s.bits = 4 ∧ 4 ≤ s.params.w ∧ s.rounds ≠ 0 ∧
    ∀ raw ∈ s.entropy, raw % 16 = 8 :=
  ⟨ready .genPrime [8, 24, 8, 40] 0 (sized 4 5), ⟨rfl, rfl⟩, rfl, by decide, by decide, by decide⟩

theorem witness_GenKeysBuilds : ∃ s : State, s.Started .genKeys ∧ 6 ≤ s.bits.toNat ∧ s.bits.toNat ≤ s.params.w ∧
    s.bits.toNat % 2 = 0 ∧ s.rounds ≠ 0 ∧ Nat.Prime 61 ∧ 2 ^ (s.bits.toNat / 2 - 1) < 61 ∧
    61 < 2 ^ (s.bits.toNat / 2) ∧ Nat.Prime 53 ∧ 2 ^ (s.bits.toNat / 2 - 1) < 53 ∧ 53 < 2 ^ (s.bits.toNat / 2) ∧
    61 ≠ 53 ∧ [0].length = s.rounds.toNat ∧ s.entropy = 61 :: [0] ++ 53 :: [0] ++ [] ∧
    Nat.gcd 65537 ((61 - 1) * (53 - 1)) = 1 :=
  ⟨ready .genKeys [61, 0, 53, 0] 0 (sized 12 1), ⟨rfl, rfl⟩, by decide, by decide, by decide, by decide, by norm_num,
    by decide, by decide, by norm_num, by decide, by decide, by decide, rfl, rfl, by norm_num⟩
theorem witness_KeyPair : ∃ s t : State, s.Inv ∧ s.RunsFree .genKeys ∧ exec .genKeys s = .next t ∧ t.eng = .idle ∧
    t.status.error = false ∧ t.big.e = 65537 ∧ bitlen t.big.n = s.bits.toNat :=
  ⟨ready .genKeys [61, 0, 53, 0] 500 (sized 12 1), _, inv_of rfl (by decide) (by decide) rfl rfl (.inr rfl),
    ⟨_, rfl, rfl⟩, exec_after _ _, by decide +kernel, by decide +kernel, by decide +kernel, by decide +kernel⟩
theorem witness_KeyPair_short : ∃ s t : State, s.Inv ∧ s.RunsFree .genKeys ∧ exec .genKeys s = .next t ∧
    t.eng = .idle ∧ t.status.error = false ∧ bitlen t.big.n = s.bits.toNat - 1 :=
  ⟨ready .genKeys [37, 0, 41, 0] 500 (sized 12 1), _, inv_of rfl (by decide) (by decide) rfl rfl (.inr rfl),
    ⟨_, rfl, rfl⟩, exec_after _ _, by decide +kernel, by decide +kernel, by decide +kernel⟩
theorem witness_PublicExponent_fallback : ∃ s t : State, s.Inv ∧ s.RunsFree .genKeys ∧ exec .genKeys s = .next t ∧
    t.eng = .idle ∧ t.status.error = false ∧ t.big.e ≠ 65537 :=
  ⟨ready .genKeys [917519, 0, 524309, 0, 2, 1] 500 (sized 40 1), _,
    inv_of rfl (by decide) (by decide) rfl rfl (.inr rfl), ⟨_, rfl, rfl⟩, exec_after _ _, by decide +kernel,
    by decide +kernel, by decide +kernel⟩
theorem witness_SmallestKey : ∃ s t : State, s.Inv ∧ s.RunsFree .genKeys ∧ s.bits = 6 ∧ exec .genKeys s = .next t ∧
    t.eng = .idle ∧ t.status.error = false ∧ t.big.p = 5 :=
  ⟨ready .genKeys [0, 0, 0, 0, 2, 0] 500 (sized 6 1), _, inv_of rfl (by decide) (by decide) rfl rfl (.inr rfl),
    ⟨_, rfl, rfl⟩, rfl, exec_after _ _, by decide +kernel, by decide +kernel, by decide +kernel⟩
theorem witness_GenKeysCanHang : ∃ s : State, s.Started .genKeys ∧ s.bits = 6 ∧ 6 ≤ s.params.w ∧ s.rounds ≠ 0 ∧
    ∀ raw ∈ s.entropy, raw % 8 = 0 :=
  ⟨ready .genKeys [0, 8, 0, 16] 0 (sized 6 1), ⟨rfl, rfl⟩, rfl, by decide, by decide, by decide⟩

theorem witness_ModexpRoundTrip : ∃ s t : State, Nat.Prime 61 ∧ Nat.Prime 53 ∧ 61 ≠ 53 ∧
    17 * 2753 % ((61 - 1) * (53 - 1)) = 1 ∧ 65 < 61 * 53 ∧ s.Started .modexp ∧ t.Started .modexp ∧
    s.big.a = 65 ∧ s.big.b = 17 ∧ s.big.m = 61 * 53 ∧ bitlen 17 + 1 ≤ s.quantum ∧
    t.big.a = 65 ^ 17 % (61 * 53) ∧ t.big.b = 2753 ∧ t.big.m = 61 * 53 ∧ bitlen 2753 + 1 ≤ t.quantum :=
  ⟨ready .modexp [] 20 (load 65 17 3233), ready .modexp [] 20 (load 2790 2753 3233), by norm_num, by norm_num,
    by decide, by norm_num, by norm_num, ⟨rfl, rfl⟩, ⟨rfl, rfl⟩, rfl, rfl, rfl, by decide +kernel, by
      show 2790 = 65 ^ 17 % (61 * 53); norm_num, rfl, rfl, by decide +kernel⟩

end Sys2Proof.Tests
end

section
/-! PROOFS. W is constant (00_scope.md R5, 10_state.md R23): neither an engine step, nor a host transaction, nor reset
changes it. The engine's part comes from the frame of one engine step, for every command at once. -/

namespace Sys2Proof.Machine

/-- The fields no engine step of a command changes, however the step ends; the counterpart of `hostStep_frame`. -/
theorem runCommand_frame (s : State) (f : Operands → Option Nat → Work → Micro Work Ending) :
    (s.runCommand f).params = s.params ∧ (s.runCommand f).irqEn = s.irqEn ∧ (s.runCommand f).cmd = s.cmd ∧
    (s.runCommand f).bits = s.bits ∧ (s.runCommand f).rounds = s.rounds ∧
    (s.runCommand f).status.overrun = s.status.overrun ∧ (s.runCommand f).quantum = s.quantum ∧
    (s.runCommand f).response = s.response ∧ (s.runCommand f).inputs = s.inputs ∧
    (s.runCommand f).freeEvents = s.freeEvents ∧ (s.runCommand f).freeReads = s.freeReads := by
  obtain ⟨-, h⟩ | ⟨w, work, -, ⟨-, h⟩ | ⟨-, ⟨work', rest, -, h⟩ | ⟨e, rest, -, h⟩ | ⟨c, rest, -, h⟩⟩⟩ :=
    runCommand_cases s f <;> simp [h]

/-- No engine step of a command changes W. -/
theorem exec_params {i : Instr} {s t : State} (h : exec i s = .next t) : t.params = s.params := by
  rw [exec_eq, Host.Outcome.next.injEq] at h
  subst h
  exact (runCommand_frame s _).1

/-- No engine step changes W, whether the running word is legal or not. -/
theorem engineStep_params {s t : State} (h : engineStep s = .next t) : t.params = s.params := by
  obtain ⟨-, rfl⟩ | ⟨w, work, i, -, -, hexec⟩ | ⟨w, work, -, -, ⟨-, rfl⟩ | ⟨-, rfl⟩⟩ := engineStep_cases h
  · rfl
  · exact exec_params hexec
  · exact s.raiseError_params .aborted
  · exact s.raiseError_params .illegalCmd

end Sys2Proof.Machine

namespace Sys2Proof.Proofs

open Sys2Proof.Machine

/-- Settles O9, by the kind of event the step takes. -/
theorem widthNeverChanges : Obligations.WidthNeverChanges := by
  intro s t h
  obtain ⟨txn, -, rfl⟩ | ⟨-, rfl⟩ | ⟨ds, q, -, hengine⟩ := step_cases h
  · exact (hostStep_frame txn s.takeEvent).1.trans s.takeEvent_params
  · exact s.takeEvent.doReset_params.trans s.takeEvent_params
  · exact (engineStep_params hengine).trans s.takeEvent_params

end Sys2Proof.Proofs
end

section
/-! PROOFS. The invariant holds at reset and every step keeps it (10_state.md R30, R33, R38; 60_exceptions.md R173): one
lemma for each update of the state, then one for each kind of event. -/

namespace Sys2Proof.Machine

/-! ### What a success completion writes fits the registers -/

/-- Every number the effect writes is below `2^w`, as a register of `w` bits requires (10_state.md R30). -/
def Effect.Fits (w : Nat) : Effect → Prop
  | .nothing => True
  | .verdict _ => True
  | .result v => v < 2 ^ w
  | .keyPair p q n phi e d => p < 2 ^ w ∧ q < 2 ^ w ∧ n < 2 ^ w ∧ phi < 2 ^ w ∧ e < 2 ^ w ∧ d < 2 ^ w
  | .zeroAll => True

theorem State.write_lt {s : State} {e : Effect} (hbig : ∀ x, s.big.get x < 2 ^ s.params.w)
    (he : e.Fits s.params.w) (x : BigReg) : (s.write e).big.get x < 2 ^ s.params.w := by
  rw [State.write_get]
  cases e with
  | nothing => exact hbig x
  | verdict v => exact hbig x
  | result v =>
    dsimp only
    split_ifs
    exacts [he, hbig x]
  | keyPair p q n phi e d =>
    obtain ⟨hp, hq, hn, hphi, hE, hd⟩ := he
    dsimp only
    split_ifs
    exacts [hd, hE, hphi, hn, hq, hp, hbig x]
  | zeroAll => exact Nat.two_pow_pos _

/-- A greatest common divisor is below any bound on its two numbers. -/
theorem gcd_lt_of_lt {a b c : Nat} (ha : a < c) (hb : b < c) : Nat.gcd a b < c := by
  obtain rfl | hpos := Nat.eq_zero_or_pos a
  · rwa [Nat.gcd_zero_left]
  · exact (Nat.gcd_le_left b hpos).trans_lt ha

/-- The first exponent GEN_KEYS tries fits every legal width, and a redrawn one is below `phi`
(41_key_generation.md R123). -/
theorem TrialE.lt {phi e w : Nat} (h : TrialE phi e) (hphi : phi < 2 ^ w) (hw : 64 ≤ w) : e < 2 ^ w := by
  obtain rfl | ⟨-, -, hle⟩ := h
  · calc Config.e0 < 2 ^ 64 := by decide
      _ ≤ 2 ^ w := Nat.pow_le_pow_right two_pos hw
  · omega

theorem keyPair_fits {o : Operands} {p q n phi e d : Nat} (hw : 64 ≤ o.w) (hc : o.keyChecks)
    (hk : KeyPairOk (o.bits / 2) o.t p q n phi e d) : (Effect.keyPair p q n phi e d).Fits o.w := by
  obtain ⟨hpq, rfl, rfl, he, -, -, -, hd⟩ := hk
  obtain ⟨hmin, hmax, -, -⟩ := hc
  obtain ⟨-, -, hp, hq, hn, hphi, -⟩ := primePair_bounds (by omega) hpq
  have hhalf : 2 ^ (o.bits / 2) ≤ 2 ^ o.w := Nat.pow_le_pow_right two_pos (by omega)
  have hfull : 2 ^ (2 * (o.bits / 2)) ≤ 2 ^ o.w := Nat.pow_le_pow_right two_pos (by omega)
  have hphi' : phiOf p q < 2 ^ o.w := by omega
  exact ⟨by omega, by omega, by omega, hphi', he.lt hphi' hw, hd.trans hphi'⟩

/-- A command that ends as its rule says writes numbers that fit, if its operands do. -/
theorem EndingOk.fits {o : Operands} {i : Instr} {e : Effect} (hw : 64 ≤ o.w) (ha : o.a < 2 ^ o.w)
    (hb : o.b < 2 ^ o.w) (hm : o.m < 2 ^ o.w) (h : EndingOk o i (.success e)) : e.Fits o.w := by
  cases i with
  | nop => cases h; trivial
  | isPrime =>
    obtain ⟨-, he⟩ | ⟨-, v, he, -⟩ := h <;> cases he
    trivial
  | genPrime =>
    obtain ⟨-, he⟩ | ⟨-, -, -, he⟩ | ⟨⟨-, hbits, -⟩, c, he, ⟨-, -, hlt⟩, -⟩ := h <;> cases he
    exact hlt.trans_le (Nat.pow_le_pow_right two_pos hbits)
  | genKeys =>
    obtain ⟨-, he⟩ | ⟨-, -, -, -, he⟩ | ⟨hc, p, q, n, phi, k, d, he, hk⟩ := h <;> cases he
    exact keyPair_fits hw hc hk
  | modexp =>
    obtain ⟨-, he⟩ | ⟨hne, he⟩ := h <;> cases he
    exact (Nat.mod_lt _ (Nat.pos_of_ne_zero hne)).trans hm
  | gcd => cases h; exact gcd_lt_of_lt ha hb
  | modinv =>
    obtain ⟨-, he⟩ | ⟨-, -, he⟩ | ⟨-, v, he, hlt, -⟩ := h <;> cases he
    exact hlt.trans hm
  | zeroize => cases h; trivial

/-! ### Updates of the state that keep the invariant -/

theorem Params.sixtyFour_le {p : Params} (h : p.legal = true) : 64 ≤ p.w := by
  simp only [Params.legal, Bool.and_eq_true, decide_eq_true_eq] at h
  exact h.1.2

theorem errorByte_le (c : ErrorCode) : (errorByte c).toNat ≤ 7 := by cases c <;> decide

theorem errorByte_ne_zero (c : ErrorCode) : errorByte c ≠ 0 := by cases c <;> decide

variable {s t : State} {w : Word} {work : Work}

theorem State.not_busy_of_idle (hidle : s.eng = .idle) : s.eng ≠ .busy w work := by
  rw [hidle]; exact nofun

theorem State.word_unique {w' : Word} {work' : Work} (h : s.eng = .busy w work) (h' : s.eng = .busy w' work') :
    w' = w := by
  cases h.symm.trans h'; rfl

theorem State.Inv.takeEvent (h : s.Inv) : s.takeEvent.Inv := by
  unfold State.takeEvent
  split <;> exact ⟨h.params, h.big, h.errcode, h.error, h.abort, h.busy⟩

theorem State.Inv.offer (h : s.Inv) (ds : List Nat) (q : Nat) : (s.offer ds q).Inv :=
  ⟨h.params, h.big, h.errcode, h.error, h.abort, h.busy⟩

theorem State.Inv.respond (h : s.Inv) (r : Response) : (s.respond r).Inv :=
  ⟨h.params, h.big, h.errcode, h.error, h.abort, h.busy⟩

theorem State.Inv.respondFree (h : s.Inv) (mk : Word → Response) : (s.respondFree mk).Inv :=
  ⟨h.params, h.big, h.errcode, h.error, h.abort, h.busy⟩

theorem State.Inv.useDraws (h : s.Inv) (rest : List Nat) : (s.useDraws rest).Inv :=
  ⟨h.params, h.big, h.errcode, h.error, h.abort, h.busy⟩

theorem State.Inv.drop (h : s.Inv) : s.drop.Inv :=
  ⟨h.params, h.big, h.errcode, h.error, h.abort, h.busy⟩

/-- Reset leaves the invariant whatever was before it; only the width has to be legal. -/
theorem State.inv_doReset (h : s.params.legal = true) : s.doReset.Inv where
  params := h
  big x := (BigRegs.get_zero x).trans_lt (Nat.two_pow_pos _)
  errcode := Nat.zero_le 7
  error := nofun
  abort _ := rfl
  busy := nofun

theorem State.Inv.accept (h : s.Inv) (w : Word) : (s.accept w).Inv where
  params := h.params
  big := h.big
  errcode := h.errcode
  error := nofun
  abort := nofun
  busy w' work hbusy := by
    cases hbusy
    exact ⟨rfl, rfl, rfl, fun hd => by simp [hd], trivial⟩

/-- While IDLE the last clause of the invariant says nothing, so a write to a register that no other clause speaks of
keeps it. -/
theorem State.Inv.writeBits (h : s.Inv) (v : BitVec 16) (hidle : s.eng = .idle) : ({ s with bits := v } : State).Inv :=
  ⟨h.params, h.big, h.errcode, h.error, h.abort, fun _ _ hbusy => absurd hbusy (State.not_busy_of_idle hidle)⟩

theorem State.Inv.writeRounds (h : s.Inv) (v : BitVec 8) (hidle : s.eng = .idle) :
    ({ s with rounds := v } : State).Inv :=
  ⟨h.params, h.big, h.errcode, h.error, h.abort, fun _ _ hbusy => absurd hbusy (State.not_busy_of_idle hidle)⟩

theorem State.Inv.setBig (h : s.Inv) {x : BigReg} {v : Nat} (hv : v < 2 ^ s.params.w) (hidle : s.eng = .idle) :
    (s.setBig x v).Inv where
  params := h.params
  big y := by
    rw [State.setBig_big, BigRegs.get_set]
    split_ifs
    · exact hv
    · exact h.big y
  errcode := h.errcode
  error := h.error
  abort := h.abort
  busy _ _ hbusy := absurd hbusy (State.not_busy_of_idle hidle)

theorem State.Inv.writeCtrl (h : s.Inv) (v : Word) : (s.writeCReg .ctrl v).Inv where
  params := h.params
  big := h.big
  errcode := h.errcode
  error := h.error
  abort hidle := by
    have hbusy : s.busy = false := State.busy_eq_false.mpr hidle
    simp [State.writeCReg, h.abort hidle, hbusy]
  busy := h.busy

/-- Clearing flags keeps DONE and ERROR at 0 where they are 0 (10_state.md R25). -/
theorem State.Inv.clearStatus (h : s.Inv) (v : Word) : ({ s with status := s.status.clear v } : State).Inv where
  params := h.params
  big := h.big
  errcode := h.errcode
  error herr := h.error (Bool.and_elim_left herr)
  abort := h.abort
  busy w work hbusy := by
    obtain ⟨hcmd, hdone, herror, hprime, hwork⟩ := h.busy w work hbusy
    exact ⟨hcmd, by simp [Status.clear, hdone], by simp [Status.clear, herror], hprime, hwork⟩

theorem State.Inv.raiseError (h : s.Inv) (c : ErrorCode) : (s.raiseError c).Inv where
  params := by rw [State.raiseError_params]; exact h.params
  big x := by
    rw [State.raiseError_get, State.raiseError_params]
    split_ifs
    · exact Nat.two_pow_pos _
    · exact h.big x
  errcode := errorByte_le c
  error _ := errorByte_ne_zero c
  abort _ := rfl
  busy := nofun

theorem State.Inv.complete (h : s.Inv) {e : Effect} (he : e.Fits s.params.w) (ha : s.abortPending = false) :
    (s.complete e).Inv where
  params := by rw [State.complete_params]; exact h.params
  big x := by rw [State.complete_params]; exact State.write_lt h.big he x
  errcode := Nat.zero_le 7
  error := nofun
  abort _ := by rw [State.complete_abortPending]; exact ha
  busy := nofun

/-- New working values that are right for the running command keep the invariant. -/
theorem State.Inv.goOn (h : s.Inv) {work' : Work} (hbusy : s.eng = .busy w work)
    (hwork' : work'.Ok s.operands (decode? w)) : ({ s with eng := .busy w work' } : State).Inv where
  params := h.params
  big := h.big
  errcode := h.errcode
  error := h.error
  abort := nofun
  busy _ _ hbusy' := by
    cases hbusy'
    obtain ⟨hcmd, hdone, herror, hprime, -⟩ := h.busy w work hbusy
    exact ⟨hcmd, hdone, herror, hprime, hwork'⟩

/-! ### Each kind of event keeps the invariant -/

/-- A write that is dropped while BUSY (70_reset_and_hazards.md R205) has to keep the invariant from IDLE only. -/
theorem State.Inv.dropOr (h : s.Inv) {u : State} (hu : s.eng = .idle → u.Inv) :
    (if s.busy then s.drop else u).Inv := by
  split_ifs with hbusy
  · exact h.drop
  · exact hu (State.busy_eq_false.mp (by simpa using hbusy))

theorem State.Inv.writeCReg (h : s.Inv) (c : CReg) (v : Word) : (s.writeCReg c v).Inv := by
  cases c with
  | id => exact h
  | param => exact h
  | errcode => exact h
  | ctrl => exact h.writeCtrl v
  | status => exact h.clearStatus v
  | cmd => exact h.dropOr fun _ => h.accept v
  | bits => exact h.dropOr (h.writeBits _)
  | rounds => exact h.dropOr (h.writeRounds _)

theorem State.Inv.writeWord (h : s.Inv) (x : BigReg) (j : Nat) (v : Word) : (s.writeWord x j v).Inv := by
  obtain heq | ⟨-, heq⟩ | ⟨hidle, hj, heq⟩ := writeWord_cases s x j v <;> rw [heq]
  · exact h
  · exact h.drop
  · have hroom : 32 * (j + 1) ≤ s.params.w := by
      have := Nat.div_mul_le_self s.params.w 32
      unfold Params.nw at hj
      omega
    exact h.setBig (setBigWord_lt v hroom (h.big x)) (State.busy_eq_false.mp hidle)

theorem hostStep_keeps_inv (h : s.Inv) (txn : Txn) : (hostStep txn s).Inv := by
  obtain ⟨r, heq⟩ | ⟨mk, heq⟩ | ⟨c, v, -, -, -, heq⟩ | ⟨x, j, v, heq⟩ := hostStep_cases txn s <;> rw [heq]
  · exact h.respond r
  · exact h.respondFree mk
  · exact (h.writeCReg c v).respond _
  · exact (h.writeWord x j v).respond _

/-- However the burst of a command stops, the state it leaves has the invariant: the micro-operations keep the working
values right, and end only as the command's rule says (`command_keeps`). -/
theorem exec_keeps_inv {i : Instr} (h : s.Inv) (hbusy : s.eng = .busy w work)
    (hd : decode? w = some i) (hexec : exec i s = .next t) : t.Inv := by
  obtain ha | ha := Bool.eq_false_or_eq_true s.abortPending
  · rw [exec_abort hbusy ha, Host.Outcome.next.injEq] at hexec
    exact hexec ▸ h.raiseError _
  · rw [exec_busy hbusy ha, Host.Outcome.next.injEq] at hexec
    subst hexec
    obtain ⟨-, -, -, -, hwork⟩ := h.busy w work hbusy
    rw [hd] at hwork
    obtain ⟨work', rest, hb, hwork'⟩ | ⟨e, rest, hb, hend⟩ :=
      burst_keeps (fun draw _ => command_keeps i s.operands draw) hwork (s.quantum + 1) s.entropy <;> rw [hb]
    · exact (h.useDraws rest).goOn hbusy (by rw [hd]; exact hwork')
    · cases e with
      | success e =>
        have hfits : e.Fits s.params.w :=
          hend.fits (Params.sixtyFour_le h.params) (h.big .a) (h.big .b) (h.big .m)
        exact (h.useDraws rest).complete hfits ha
      | failure c => exact (h.useDraws rest).raiseError c

theorem engineStep_keeps_inv (h : s.Inv) (hstep : engineStep s = .next t) : t.Inv := by
  obtain ⟨-, rfl⟩ | ⟨w, work, i, hbusy, hd, hexec⟩ | ⟨w, work, -, -, ⟨-, rfl⟩ | ⟨-, rfl⟩⟩ := engineStep_cases hstep
  · exact h
  · exact exec_keeps_inv h hbusy hd hexec
  · exact h.raiseError _
  · exact h.raiseError _

end Sys2Proof.Machine

namespace Sys2Proof.Proofs

open Sys2Proof.Machine

/-- Settles O11, by the kind of event the step takes. -/
theorem stepKeepsInvariant : Obligations.StepKeepsInvariant := by
  intro s t h hstep
  obtain ⟨txn, -, rfl⟩ | ⟨-, rfl⟩ | ⟨ds, q, -, hengine⟩ := step_cases hstep
  · exact hostStep_keeps_inv h.takeEvent txn
  · exact State.inv_doReset h.takeEvent.params
  · exact engineStep_keeps_inv (h.takeEvent.offer ds q) hengine

/-- Settles O10: the reset state is a fixed point of reset, and its width 2048 is legal (log 3). -/
theorem invariantAtReset : Obligations.InvariantAtReset :=
  State.inv_doReset (s := State.reset) (by decide)

end Sys2Proof.Proofs
end

section
/-! PROOFS. How far each engine step gets shows in no result (10_state.md R20, R34; log 1): a burst that paused goes on
where it stopped, and what it leaves is what one burst of both would leave. -/

namespace Sys2Proof.Machine

section

variable {σ ρ : Type} {f : Option Nat → σ → Micro σ ρ}

/-- The answers a burst has not used. -/
def Burst.rest : Burst σ ρ → List Nat
  | .paused _ rest => rest
  | .finished _ rest => rest

theorem Runs.length_le {n : Nat} {ds ds' : List Nat} {w w' : σ} (h : Runs f n ds w ds' w') :
    ds'.length ≤ ds.length := by
  induction h with
  | refl => exact Nat.le_refl _
  | advance _ _ ih => exact ih
  | consume _ _ ih => exact ih.trans (by simp)

/-- A burst gives no answer back. -/
theorem burst_rest_length_le (f : Option Nat → σ → Micro σ ρ) (k : Nat) (ds : List Nat) (w : σ) :
    (burst f k ds w).rest.length ≤ ds.length := by
  obtain ⟨n, ds', w', hb, hruns, -⟩ | ⟨n, ds', w', r, hb, -, hruns, -⟩ := burst_cases f k ds w <;>
    rw [hb] <;> exact hruns.length_le

/-- Two bursts, the second going on where the first paused, are one burst of both their micro-operations; a machine
that waits for a draw waits on. -/
theorem burst_resume {a : Nat} {ds ds' : List Nat} {w w' : σ} (h : burst f a ds w = .paused w' ds') (b : Nat) :
    burst f (a + b) ds w = burst f b ds' w' := by
  induction a generalizing ds w with
  | zero => cases h; rw [Nat.zero_add]
  | succ a ih =>
    rw [burst] at h
    rw [Nat.add_right_comm, burst]
    cases hm : f ds.head? w with
    | advance w₁ => rw [hm] at h; exact ih h
    | consume w₁ => rw [hm] at h; exact ih h
    | wait =>
      rw [hm] at h
      cases h
      cases b <;> simp [burst, hm]
    | finish r => rw [hm] at h; cases h

end

variable {s : State} {w : Word} {work work' : Work}

/-- The draws of two uses add up. -/
theorem State.useDraws_useDraws {rest rest' : List Nat} (h : rest.length ≤ s.entropy.length)
    (h' : rest'.length ≤ rest.length) : (s.useDraws rest).useDraws rest' = s.useDraws rest' := by
  have hdraws : s.draws + (s.entropy.length - rest.length) + (rest.length - rest'.length) =
      s.draws + (s.entropy.length - rest'.length) := by omega
  simp only [State.useDraws, hdraws]

/-- An error completion does not depend on the working values it drops. -/
theorem State.raiseError_of_work (hbusy : s.eng = .busy w work) (c : ErrorCode) :
    ({ s with eng := .busy w work' } : State).raiseError c = s.raiseError c := by
  have hdst : ({ s with eng := .busy w work' } : State).dst = s.dst := by
    rw [State.dst_eq hbusy, State.dst_eq rfl]
  have hprime : ({ s with eng := .busy w work' } : State).dstPrime = s.dstPrime := by
    rw [State.dstPrime_eq hbusy, State.dstPrime_eq rfl]
  cases c <;> simp [State.raiseError, State.errorEffects, errorIsLate, State.zeroBigs, hdst, hprime]

theorem State.complete_of_work (e : Effect) :
    ({ s with eng := .busy w work' } : State).complete e = s.complete e := by
  cases e <;> rfl

/-- A burst's stop leaves the same state whether the command had paused before or not. -/
theorem State.afterBurst_of_paused {rest : List Nat} (hbusy : s.eng = .busy w work)
    (h : rest.length ≤ s.entropy.length) {b : Burst Work Ending} (hb : b.rest.length ≤ rest.length) :
    ({ s.useDraws rest with eng := .busy w work' } : State).afterBurst w b = s.afterBurst w b := by
  match b, hb with
  | .paused v rest', hb => exact congrArg (fun u : State => { u with eng := .busy w v }) (useDraws_useDraws h hb)
  | .finished (.success e) rest', hb =>
    exact (State.complete_of_work (s := (s.useDraws rest).useDraws rest') e).trans
      (congrArg (·.complete e) (useDraws_useDraws h hb))
  | .finished (.failure c) rest', hb =>
    exact (State.raiseError_of_work (s := (s.useDraws rest).useDraws rest') hbusy c).trans
      (congrArg (·.raiseError c) (useDraws_useDraws h hb))

/-- The bound on a step's micro-operations is in no result. -/
theorem State.afterBurst_withQuantum (s : State) (q : Nat) (w : Word) (b : Burst Work Ending) :
    (s.withQuantum q).afterBurst w b = (s.afterBurst w b).withQuantum q := by
  match b with
  | .paused v rest => rfl
  | .finished (.success e) rest => cases e <;> rfl
  | .finished (.failure c) rest => cases c <;> rfl

/-- A step of a running command that leaves it running is a burst that paused. -/
theorem exec_paused {i : Instr} {t : State} (hbusy : s.eng = .busy w work) (ha : s.abortPending = false)
    (h : exec i s = .next t) (ht : t.busy = true) :
    ∃ work' rest, burst (commandMicro i s.operands) (s.quantum + 1) s.entropy work = .paused work' rest ∧
      t = { s.useDraws rest with eng := .busy w work' } := by
  rw [exec_busy hbusy ha, Host.Outcome.next.injEq] at h
  subst h
  match hb : burst (commandMicro i s.operands) (s.quantum + 1) s.entropy work with
  | .paused work' rest => exact ⟨work', rest, rfl, rfl⟩
  | .finished (.success e) rest => rw [hb] at ht; cases ht
  | .finished (.failure c) rest => rw [hb] at ht; cases ht

end Sys2Proof.Machine

namespace Sys2Proof.Proofs

open Sys2Proof.Machine

/-- Settles O35: both ways leave what the burst of the second step leaves, `burst_resume`. -/
theorem engineSlicingDoesNotMatter : Obligations.EngineSlicingDoesNotMatter := by
  intro i s t q k ⟨work, hbusy, ha⟩ hexec ht
  obtain ⟨work', rest, (hpaused : burst (commandMicro i s.operands) (q + 1) s.entropy work = .paused work' rest), rfl⟩ :=
    exec_paused (s := s.withQuantum q) hbusy ha hexec ht
  have hrest : rest.length ≤ s.entropy.length := by
    have := burst_rest_length_le (commandMicro i s.operands) (q + 1) s.entropy work
    rwa [hpaused] at this
  refine ⟨s.afterBurst (encode i) (burst (commandMicro i s.operands) (k + 1) rest work'), ?_, ?_⟩
  · rw [← State.afterBurst_of_paused hbusy hrest (burst_rest_length_le _ _ _ _), ← State.afterBurst_withQuantum]
    exact exec_busy rfl ha
  · rw [← State.afterBurst_withQuantum, ← burst_resume hpaused, Nat.add_right_comm q 1]
    exact exec_busy hbusy ha

end Sys2Proof.Proofs
end

section
/-! PROOFS. The registers a host reaches: what a read or a write of each control register does (10_state.md R22 to R29),
the reads of a running command's destinations (R36, R37), and what no host transaction changes (R31, R38). -/

namespace Sys2Proof.Machine

variable (s : State)

/-- Each control register stands at its offset, which is aligned (20_memory.md R63). -/
theorem decodeOffset_creg (c : CReg) : (BitVec.ofNat 16 (cregOffset c)).toNat % 4 = 0 ∧
    decodeOffset (BitVec.ofNat 16 (cregOffset c)).toNat = .creg c := by
  cases c <;> decide

theorem hostStep_rd_creg (c : CReg) :
    hostStep (.rd (BitVec.ofNat 16 (cregOffset c))) s = s.respond (.readOkay (s.readCReg c)) := by
  rw [hostStep_rd s (decodeOffset_creg c).1, (decodeOffset_creg c).2]; rfl

theorem hostStep_wr_creg (c : CReg) (v : Word) :
    hostStep (.wr (BitVec.ofNat 16 (cregOffset c)) v) s = (s.writeCReg c v).respond .writeOkay := by
  rw [hostStep_wr s v (decodeOffset_creg c).1, (decodeOffset_creg c).2]; rfl

theorem statusWord_getLsbD (busy : Bool) (f : Status) :
    (statusWord busy f).getLsbD 0 = busy ∧ (statusWord busy f).getLsbD 1 = f.done ∧
    (statusWord busy f).getLsbD 2 = f.error ∧ (statusWord busy f).getLsbD 3 = f.prime ∧
    (statusWord busy f).getLsbD 4 = f.overrun := by
  obtain ⟨done, error, prime, overrun⟩ := f
  revert busy done error prime overrun
  decide

/-- A word has no bit at or above the bit length of its value. -/
theorem Word.getLsbD_of_lt {u : Word} {n k : Nat} (hu : u.toNat < 2 ^ n) (hk : n ≤ k) : u.getLsbD k = false :=
  Nat.testBit_lt_two_pow (hu.trans_le (Nat.pow_le_pow_right two_pos hk))

theorem statusWord_lt (busy : Bool) (f : Status) : (statusWord busy f).toNat < 2 ^ 5 := by
  have h := busy.toNat_le
  have hd := f.done.toNat_le
  have he := f.error.toNat_le
  have hp := f.prime.toNat_le
  have ho := f.overrun.toNat_le
  rw [statusWord, BitVec.toNat_ofNat]
  omega

theorem ctrlWord_getLsbD (irqEn : Bool) : (ctrlWord irqEn).getLsbD 0 = false ∧ (ctrlWord irqEn).getLsbD 1 = irqEn := by
  cases irqEn <;> decide

theorem ctrlWord_lt (irqEn : Bool) : (ctrlWord irqEn).toNat < 2 ^ 2 := by cases irqEn <;> decide

variable {s} {w : Word} {work : Work}

theorem decode?_of_decode {i : Instr} (h : decode w = .ok i) : decode? w = some i := by
  rw [decode?, h]

/-- Of the writes to a control register only an accepted command word touches ENG, CMD or PRIME. -/
theorem writeCReg_keeps_or_accepts (s : State) (c : CReg) (v : Word) :
    ((s.writeCReg c v).eng = s.eng ∧ (s.writeCReg c v).cmd = s.cmd ∧
      (s.writeCReg c v).status.prime = s.status.prime) ∨
    (c = .cmd ∧ s.eng = .idle ∧ s.writeCReg c v = s.accept v) := by
  cases c with
  | id | param | errcode | ctrl | status => exact .inl ⟨rfl, rfl, rfl⟩
  | bits | rounds => left; cases hb : s.busy <;> simp [State.writeCReg, hb]
  | cmd =>
    cases hb : s.busy with
    | true => left; simp [State.writeCReg, hb]
    | false => exact .inr ⟨rfl, State.busy_eq_false.mp hb, by simp [State.writeCReg, hb]⟩

/-- A CMD write accepted while IDLE apart, a host step keeps ENG, CMD and PRIME (10_state.md R21, R28, R35). -/
theorem hostStep_keeps_or_accepts (t : Txn) (s : State) :
    ((hostStep t s).eng = s.eng ∧ (hostStep t s).cmd = s.cmd ∧ (hostStep t s).status.prime = s.status.prime) ∨
    (s.eng = .idle ∧ ∃ w, t = .wr 0x010 w ∧ hostStep t s = (s.accept w).respond .writeOkay) := by
  obtain ⟨r, h⟩ | ⟨mk, h⟩ | ⟨c, v, hacc, hwr, hoff, h⟩ | ⟨x, j, v, h⟩ := hostStep_cases t s
  · rw [h]; exact .inl ⟨rfl, rfl, rfl⟩
  · rw [h]; exact .inl ⟨rfl, rfl, rfl⟩
  · rw [h]
    obtain hkeeps | ⟨rfl, hidle, haccept⟩ := writeCReg_keeps_or_accepts s c v
    · exact .inl hkeeps
    · have hcmd : t.off = 0x010 := BitVec.eq_of_toNat_eq (decodeOffset_eq_creg hoff)
      exact .inr ⟨hidle, v, hcmd ▸ Txn.eq_wr hacc hwr, by rw [haccept]⟩
  · obtain hw | ⟨-, hw⟩ | ⟨-, -, hw⟩ := writeWord_cases s x j v <;> rw [h, hw] <;> exact .inl ⟨rfl, rfl, rfl⟩

/-- While BUSY no write reaches a big-number register, BITS or ROUNDS (70_reset_and_hazards.md R205). -/
theorem hostStep_keeps_operands_of_busy (t : Txn) (hbusy : s.eng = .busy w work) :
    (hostStep t s).big = s.big ∧ (hostStep t s).bits = s.bits ∧ (hostStep t s).rounds = s.rounds := by
  have hb : s.busy = true := State.busy_eq_true.mpr ⟨w, work, hbusy⟩
  obtain ⟨r, h⟩ | ⟨mk, h⟩ | ⟨c, v, -, -, -, h⟩ | ⟨x, j, v, h⟩ := hostStep_cases t s <;> rw [h]
  · exact ⟨rfl, rfl, rfl⟩
  · exact ⟨rfl, rfl, rfl⟩
  · cases c <;> simp [State.writeCReg, hb]
  · simp [State.writeWord, hb]

end Sys2Proof.Machine

namespace Sys2Proof.Proofs

open Sys2Proof.Machine

/-- Settles O16: each register takes the low bits of the word, and reads them back with zeros above. -/
theorem bitsAndRoundsReadBack : Obligations.BitsAndRoundsReadBack := by
  intro s v hidle
  have hfree : s.busy = false := State.busy_eq_false.mpr hidle
  have hbits : hostStep (.wr 0x014 v) s = { s with bits := v.setWidth 16, response := some .writeOkay } :=
    (hostStep_wr_creg s .bits v).trans (by simp [State.writeCReg, State.respond, hfree])
  have hrounds : hostStep (.wr 0x018 v) s = { s with rounds := v.setWidth 8, response := some .writeOkay } :=
    (hostStep_wr_creg s .rounds v).trans (by simp [State.writeCReg, State.respond, hfree])
  exact ⟨⟨_, hbits, rfl, BitVec.toNat_setWidth 16 v, _, hostStep_rd_creg _ .bits,
      (BitVec.toNat_setWidth_of_le (by decide)).trans (BitVec.toNat_setWidth 16 v)⟩,
    ⟨_, hrounds, rfl, BitVec.toNat_setWidth 8 v, _, hostStep_rd_creg _ .rounds,
      (BitVec.toNat_setWidth_of_le (by decide)).trans (BitVec.toNat_setWidth 8 v)⟩⟩

/-- Settles O17, with the bits of the STATUS word. -/
theorem statusReadsAndClears : Obligations.StatusReadsAndClears := by
  refine ⟨fun s => ⟨_, hostStep_rd_creg s .status, ?_⟩, fun s v => hostStep_wr_creg s .status v⟩
  obtain ⟨hbusy, hdone, herror, hprime, hoverrun⟩ := statusWord_getLsbD s.busy s.status
  exact ⟨hbusy ▸ State.busy_eq_true, hdone, herror, hprime, hoverrun,
    fun k hk => Word.getLsbD_of_lt (statusWord_lt _ _) hk⟩

/-- Settles O18; that bit 0 of a write requests an abort only while BUSY is the case split on ENG. -/
theorem ctrlReadsAndWrites : Obligations.CtrlReadsAndWrites := by
  refine ⟨fun s => ⟨_, hostStep_rd_creg s .ctrl, ?_⟩, fun s v hidle => ?_, fun s v w work hbusy => ?_⟩
  · obtain ⟨habort, hirq⟩ := ctrlWord_getLsbD s.irqEn
    refine ⟨hirq, fun k hk => ?_⟩
    obtain rfl | hk2 : k = 0 ∨ 2 ≤ k := by omega
    · exact habort
    · exact Word.getLsbD_of_lt (ctrlWord_lt _) hk2
  · have hfree : s.busy = false := State.busy_eq_false.mpr hidle
    refine (hostStep_wr_creg s .ctrl v).trans ?_
    simp [State.writeCReg, State.respond, hfree]
  · have hb : s.busy = true := State.busy_eq_true.mpr ⟨w, work, hbusy⟩
    refine (hostStep_wr_creg s .ctrl v).trans ?_
    simp [State.writeCReg, State.respond, hb]

/-- Settles O22: of the three cases of a window read, the register being a destination leaves one. -/
theorem destinationReadsAreUnspecified : Obligations.DestinationReadsAreUnspecified := by
  intro s w work i x j hbusy hd hx hj hnw
  have hdst : x ∈ s.dst := by rw [State.dst_eq hbusy, decode?_of_decode hd]; exact hx
  rw [hostStep_rd_word s x hj]
  obtain ⟨hle, -⟩ | ⟨-, -, h⟩ | ⟨-, hnot, -⟩ := hostReadWord_cases s x j
  · exact absurd hnw (Nat.not_lt.mpr hle)
  · exact h
  · exact absurd hdst hnot

/-- Settles O25: an accepted CMD write, which alone changes ENG, CMD or PRIME, needs IDLE. -/
theorem operandsAreFrozenWhileBusy : Obligations.OperandsAreFrozenWhileBusy := by
  intro s t w work hbusy
  obtain ⟨hbig, hbits, hrounds⟩ := hostStep_keeps_operands_of_busy t hbusy
  obtain ⟨hparams, herr, -⟩ := hostStep_frame t s
  obtain ⟨heng, hcmd, hprime⟩ | ⟨hidle, -⟩ := hostStep_keeps_or_accepts t s
  · exact ⟨hbig, hbits, hrounds, hcmd, herr, heng, hprime,
      by simp only [State.operands, hparams, hbits, hrounds, hbig]⟩
  · exact absurd hbusy (State.not_busy_of_idle hidle)

/-- Settles O15; W below 65536 fits the lower half of PARAM. -/
theorem idAndParamAreHardwired : Obligations.IdAndParamAreHardwired := by
  refine ⟨fun s => hostStep_rd_creg s .id, fun s hw => ⟨_, hostStep_rd_creg s .param, ?_⟩,
    fun s v => ⟨hostStep_wr_creg s .id v, hostStep_wr_creg s .param v⟩⟩
  calc (paramWord s.params).toNat = (BitVec.ofNat 16 s.params.w).toNat := BitVec.toNat_setWidth_of_le (by decide)
    _ = s.params.w := by rw [BitVec.toNat_ofNat, Nat.mod_eq_of_lt hw]

/-- Settles O19, the last clause by the frame of every host step. -/
theorem cmdAndErrcodeRead : Obligations.CmdAndErrcodeRead := by
  refine ⟨fun s => hostStep_rd_creg s .cmd,
    fun s => ⟨_, hostStep_rd_creg s .errcode, BitVec.toNat_setWidth_of_le (by decide)⟩, fun s t => ?_⟩
  obtain ⟨-, herr, -⟩ := hostStep_frame t s
  exact herr

/-- Settles O23: the table of 10_state.md R36 command by command, then the word that selects none. -/
theorem destinationSets : Obligations.DestinationSets := by
  refine ⟨⟨rfl, rfl, rfl, rfl, rfl, rfl, rfl, rfl⟩, fun i => by cases i <;> simp [dstHasPrime], ?_⟩
  intro s w work hbusy hd
  exact ⟨by rw [State.dst_eq hbusy, hd], by rw [State.dstPrime_eq hbusy, hd]⟩

end Sys2Proof.Proofs
end

section
/-! PROOFS. What the engine leaves unchanged and what may change ENG and PRIME (10_state.md R21, R31, R35, R36, R38):
the three ways an engine step of a command stops, and what each writes. -/

namespace Sys2Proof.Machine

variable {s t : State} {i : Instr} {w : Word} {work : Work}

/-- The exact word is the only word that selects a command (30_encoding.md R82). -/
theorem eq_encode_of_decode? (h : decode? w = some i) : w = encode i := by
  have hop : cmdRsvd w = 0 ∧ decodeOpcode (cmdOpcode w) = .ok i := by
    unfold decode? decode at h
    split at h
    · rename_i j hj
      cases h
      split_ifs at hj with hr
      exact ⟨hr, hj⟩
    · cases h
  obtain ⟨hr, hd⟩ := hop
  have hcode : (cmdOpcode w).toNat = (opcodeOf i).toNat := by
    unfold decodeOpcode at hd
    split at hd <;> cases hd <;> assumption
  have hlow : (cmdOpcode w).toNat = w.toNat % 2 ^ 8 := by simp [cmdOpcode]
  have hhigh : w.toNat / 2 ^ 8 % 2 ^ 24 = 0 := by
    simpa [cmdRsvd, Nat.shiftRight_eq_div_pow] using congrArg BitVec.toNat hr
  have hword : (encode i).toNat = (opcodeOf i).toNat := BitVec.toNat_setWidth_of_le (by decide)
  apply BitVec.eq_of_toNat_eq
  omega

/-- A burst that ends its command with success ends it with a write of that command. -/
theorem burst_effect {o : Operands} {k : Nat} {ds rest : List Nat} {e : Effect}
    (h : burst (commandMicro i o) k ds work = .finished (.success e) rest) : EffectOf i e := by
  obtain ⟨n, ds', work', hb, -⟩ | ⟨n, ds', work', r, hb, -, -, hend⟩ := burst_cases (commandMicro i o) k ds work
  · rw [hb] at h; cases h
  · rw [hb] at h; cases h; exact command_effect hend

/-- How an engine step of a command stops: it goes on with new working values, completes with a write of the command,
or raises an error, which an abort does without using a draw. -/
theorem exec_cases (hbusy : s.eng = .busy w work) (h : exec i s = .next t) :
    (∃ work' rest, t = { s.useDraws rest with eng := .busy w work' }) ∨
    (∃ e rest, EffectOf i e ∧ t = (s.useDraws rest).complete e) ∨
    (∃ c rest, t = (s.useDraws rest).raiseError c) := by
  rw [exec_eq, Host.Outcome.next.injEq] at h
  subst h
  obtain ⟨hidle, -⟩ | ⟨w', work', hbusy', ⟨-, h⟩ | ⟨-, ⟨v, rest, -, h⟩ | ⟨e, rest, hb, h⟩ | ⟨c, rest, -, h⟩⟩⟩ :=
    runCommand_cases s (commandMicro i)
  · exact absurd hbusy (State.not_busy_of_idle hidle)
  · exact .inr (.inr ⟨.aborted, s.entropy, by rw [h, State.useDraws_self]⟩)
  · cases hbusy.symm.trans hbusy'
    exact .inl ⟨v, rest, h⟩
  · exact .inr (.inl ⟨e, rest, burst_effect hb, h⟩)
  · exact .inr (.inr ⟨c, rest, h⟩)

/-- A command writes no register outside its destination set (10_state.md R36). -/
theorem EffectOf.write_get {e : Effect} {x : BigReg} (h : EffectOf i e) (hx : x ∉ dstOf i) :
    (s.write e).big.get x = s.big.get x := by
  cases i with
  | nop => cases h; rfl
  | isPrime => obtain ⟨v, rfl⟩ := h; rfl
  | zeroize => exact absurd (by cases x <;> decide) hx
  | genKeys =>
    obtain ⟨p, q, n, f, k, d, rfl⟩ := h
    simp only [dstOf, List.mem_cons, List.not_mem_nil, not_or] at hx
    simp [State.write_get, hx]
  | genPrime | modexp | gcd | modinv =>
    obtain ⟨v, rfl⟩ := h
    rw [State.write_get]
    exact if_neg fun hr : x = .r => hx (by rw [hr]; exact List.mem_singleton_self _)

/-- Only IS_PRIME and ZEROIZE have PRIME in their destination set (R36). -/
theorem dstHasPrime_eq_false (hp : i ≠ .isPrime) (hz : i ≠ .zeroize) : dstHasPrime i = false := by
  cases i with
  | isPrime => exact absurd rfl hp
  | zeroize => exact absurd rfl hz
  | nop | genPrime | genKeys | modexp | gcd | modinv => rfl

theorem EffectOf.complete_prime {e : Effect} (h : EffectOf i e) (hp : i ≠ .isPrime) (hz : i ≠ .zeroize) :
    (s.complete e).status.prime = s.status.prime := by
  cases i with
  | nop => cases h; rfl
  | isPrime => exact absurd rfl hp
  | zeroize => exact absurd rfl hz
  | genKeys => obtain ⟨p, q, n, f, k, d, rfl⟩ := h; rfl
  | genPrime | modexp | gcd | modinv => obtain ⟨v, rfl⟩ := h; rfl

theorem exec_get (hbusy : s.eng = .busy w work) (hd : decode? w = some i) (h : exec i s = .next t) {x : BigReg}
    (hx : x ∉ dstOf i) : t.big.get x = s.big.get x := by
  obtain ⟨work', rest, rfl⟩ | ⟨e, rest, he, rfl⟩ | ⟨c, rest, rfl⟩ := exec_cases hbusy h
  · rfl
  · exact he.write_get hx
  · have hdst : x ∉ (s.useDraws rest).dst := by rw [State.dst_eq (s := s.useDraws rest) hbusy, hd]; exact hx
    rw [State.raiseError_get, if_neg fun hlate => hdst hlate.2]
    rfl

theorem exec_prime (hbusy : s.eng = .busy w work) (hd : decode? w = some i) (h : exec i s = .next t)
    (hp : i ≠ .isPrime) (hz : i ≠ .zeroize) : t.status.prime = s.status.prime := by
  obtain ⟨work', rest, rfl⟩ | ⟨e, rest, he, rfl⟩ | ⟨c, rest, rfl⟩ := exec_cases hbusy h
  · rfl
  · exact he.complete_prime hp hz
  · have hdst : (s.useDraws rest).dstPrime = false := by
      rw [State.dstPrime_eq (s := s.useDraws rest) hbusy, hd]; exact dstHasPrime_eq_false hp hz
    simp [State.raiseError_prime, hdst]

/-- An engine step of a running word goes on with that word, or sets DONE and ends it (R21). -/
theorem engineStep_goes_on_or_ends (hbusy : s.eng = .busy w work) (h : engineStep s = .next t) :
    (∃ work', t.eng = .busy w work') ∨ (t.eng = .idle ∧ t.status.done = true) := by
  obtain ⟨hidle, -⟩ | ⟨w', work', i, hbusy', -, hexec⟩ | ⟨w', work', -, -, ⟨-, rfl⟩ | ⟨-, rfl⟩⟩ := engineStep_cases h
  · exact absurd hbusy (State.not_busy_of_idle hidle)
  · obtain ⟨v, rest, rfl⟩ | ⟨e, rest, -, rfl⟩ | ⟨c, rest, rfl⟩ := exec_cases hbusy hexec
    · exact .inl ⟨v, rfl⟩
    · exact .inr ⟨rfl, rfl⟩
    · exact .inr ⟨rfl, rfl⟩
  · exact .inr ⟨rfl, rfl⟩
  · exact .inr ⟨rfl, rfl⟩

theorem engineStep_of_idle (hidle : s.eng = .idle) : engineStep s = .next s := by
  unfold engineStep; rw [hidle]

/-- An engine step that changes PRIME is one of IS_PRIME or ZEROIZE (R35). -/
theorem engineStep_prime (h : engineStep s = .next t) (hne : t.status.prime ≠ s.status.prime) :
    ∃ work, s.eng = .busy (encode .isPrime) work ∨ s.eng = .busy (encode .zeroize) work := by
  obtain ⟨-, rfl⟩ | ⟨w, work, i, hbusy, hd, hexec⟩ | ⟨w, work, hbusy, hd, ⟨-, rfl⟩ | ⟨-, rfl⟩⟩ := engineStep_cases h
  · exact absurd rfl hne
  · obtain rfl := eq_encode_of_decode? hd
    by_cases hp : i = .isPrime
    · exact ⟨work, .inl (hp ▸ hbusy)⟩
    by_cases hz : i = .zeroize
    · exact ⟨work, .inr (hz ▸ hbusy)⟩
    exact absurd (exec_prime hbusy hd hexec hp hz) hne
  all_goals
    have hdst : s.dstPrime = false := by rw [State.dstPrime_eq hbusy, hd]
    exact absurd (by simp [State.raiseError_prime, hdst]) hne

end Sys2Proof.Machine

namespace Sys2Proof.Proofs

open Sys2Proof.Machine

/-- Settles O8, by the kind of event: a host step changes ENG by acceptance alone, reset leaves it IDLE, and an engine
step goes on with its word or sets DONE. -/
theorem engineChangesOnlyAsListed : Obligations.EngineChangesOnlyAsListed := by
  intro s t h
  obtain ⟨txn, hev, rfl⟩ | ⟨hev, rfl⟩ | ⟨ds, q, hev, hengine⟩ := step_cases h
  · obtain ⟨heng, -, -⟩ | ⟨hidle, w, rfl, hacc⟩ := hostStep_keeps_or_accepts txn s.takeEvent
    · rw [State.takeEvent_eng] at heng
      rw [heng]
      exact ⟨fun hidle w work hbusy => absurd hbusy (State.not_busy_of_idle hidle),
        fun w work hbusy hidle => absurd hbusy (State.not_busy_of_idle hidle),
        fun w work w' work' => State.word_unique⟩
    · rw [State.takeEvent_eng] at hidle
      rw [hacc, hev]
      refine ⟨fun _ w' work' hbusy => ?_, fun _ _ hbusy => absurd hbusy (State.not_busy_of_idle hidle),
        fun _ _ _ _ hbusy => absurd hbusy (State.not_busy_of_idle hidle)⟩
      cases hbusy
      exact ⟨rfl, rfl, rfl⟩
  · have hidle : s.takeEvent.doReset.eng = .idle := rfl
    exact ⟨fun _ _ _ hbusy => absurd hbusy (State.not_busy_of_idle hidle), fun _ _ _ _ => .inl hev,
      fun _ _ _ _ _ hbusy => absurd hbusy (State.not_busy_of_idle hidle)⟩
  · have heng : (s.takeEvent.offer ds q).eng = s.eng := s.takeEvent_eng
    refine ⟨fun hidle w work hbusy => ?_, fun w work hbusy hidle => ?_, fun w work w' work' hbusy hbusy' => ?_⟩
    · rw [engineStep_of_idle (heng.trans hidle), Host.Outcome.next.injEq] at hengine
      subst hengine
      exact absurd hbusy (State.not_busy_of_idle (heng.trans hidle))
    · obtain ⟨work', hbusy'⟩ | ⟨-, hdone⟩ := engineStep_goes_on_or_ends (heng.trans hbusy) hengine
      · exact absurd hbusy' (State.not_busy_of_idle hidle)
      · exact .inr ⟨hdone, ds, q, hev⟩
    · obtain ⟨v, hgoes⟩ | ⟨hidle, -⟩ := engineStep_goes_on_or_ends (heng.trans hbusy) hengine
      · exact State.word_unique hgoes hbusy'
      · exact absurd hbusy' (State.not_busy_of_idle hidle)

/-- Settles O30, by the kind of event; an accepted word clears PRIME only if it selects IS_PRIME. -/
theorem primeFlagWriters : Obligations.PrimeFlagWriters := by
  intro s t h hne
  obtain ⟨txn, hev, rfl⟩ | ⟨hev, -⟩ | ⟨ds, q, hev, hengine⟩ := step_cases h
  · obtain ⟨-, -, hprime⟩ | ⟨hidle, w, rfl, hacc⟩ := hostStep_keeps_or_accepts txn s.takeEvent
    · exact absurd (hprime.trans (by simp)) hne
    · have hw : decode? w = some .isPrime := by
        by_contra hw
        exact hne (by rw [hacc]; simp [hw])
      obtain rfl := eq_encode_of_decode? hw
      exact .inr (.inl ⟨hev, by simpa using hidle⟩)
  · exact .inl hev
  · obtain ⟨work, hbusy⟩ := engineStep_prime hengine (by simpa using hne)
    exact .inr (.inr ⟨ds, q, work, hev, by simpa using hbusy⟩)

/-- Settles O31: of the three ways a step stops, the two endings leave ENG IDLE. -/
theorem unfinishedStepFrame : Obligations.UnfinishedStepFrame := by
  intro i s t h hne
  cases heng : s.eng with
  | idle =>
    rw [exec_eq, Host.Outcome.next.injEq, State.runCommand, State.engineTurn, heng] at h
    exact absurd (h ▸ heng) hne
  | busy w work =>
    obtain ⟨v, rest, rfl⟩ | ⟨e, rest, -, rfl⟩ | ⟨c, rest, rfl⟩ := exec_cases heng h
    · exact ⟨rfl, fun w' work' hbusy => by cases hbusy; exact ⟨v, rfl⟩⟩
    · exact absurd rfl hne
    · exact absurd rfl hne

/-- Settles O32: the destinations and PRIME by the ways a step stops, the other fields by `runCommand_frame`. -/
theorem engineStepFrame : Obligations.EngineStepFrame := by
  intro i s t work hbusy h
  have hd := decode?_encode i
  refine ⟨fun x hx => exec_get hbusy hd h hx, exec_prime hbusy hd h, ?_⟩
  rw [exec_eq, Host.Outcome.next.injEq] at h
  subst h
  obtain ⟨hparams, hirq, hcmd, hbits, hrounds, hoverrun, hquantum, hresponse, hinputs, hevents, hreads⟩ :=
    runCommand_frame s (commandMicro i)
  exact ⟨hoverrun, hirq, hcmd, hbits, hrounds, hparams, hresponse, hinputs, hquantum, hevents, hreads⟩

end Sys2Proof.Proofs
end

section
/-! PROOFS. The register window (20_memory.md R63, R64, R67): the decode of each range of offsets, what a read answers
and a write of a word stores, and how the words of a big number and the octets of an integer make it up (R64, R66). -/

namespace Sys2Proof.Machine

variable {s : State} {x : BigReg} {j : Nat}

/-- The index of a window counts through the registers in the order of 10_state.md R30. -/
theorem bigOfIndex_eq_getElem? : ∀ i < 10, bigOfIndex i = BigReg.all[i]? := by decide

/-- Word `j` of register `i` stands at its offset (20_memory.md R63). -/
theorem exists_decodeOffset_eq_word {i : Nat} (hi : i < 10) (hj : j < 128) :
    ∃ x, BigReg.all[i]? = some x ∧ decodeOffset (0x1000 + 0x200 * i + 4 * j) = .word x j := by
  have hx : BigReg.all[i]? = some (BigReg.all[i]'hi) := List.getElem?_eq_getElem hi
  exact ⟨_, hx, decodeOffset_of_window (Nat.le_of_lt_succ hi) hj rfl ((bigOfIndex_eq_getElem? i hi).trans hx)⟩

/-- The two gaps of the window (R63). -/
theorem decodeOffset_unmapped {off : Nat} (h : 0x020 ≤ off ∧ off ≤ 0x0FFC ∨ 0x2400 ≤ off) :
    decodeOffset off = .unmapped := by
  rw [decodeOffset, if_neg (by omega), if_neg (by omega)]

theorem decodeOffset_ne_unmapped_of_low : ∀ off ≤ 0x01C, off % 4 = 0 → decodeOffset off ≠ .unmapped := by decide

/-- The aligned offsets outside the gaps are mapped (R63). -/
theorem decodeOffset_ne_unmapped {off : Nat} (halign : off % 4 = 0)
    (h : off ≤ 0x01C ∨ 0x1000 ≤ off ∧ off ≤ 0x23FC) : decodeOffset off ≠ .unmapped := by
  obtain hlow | ⟨hlo, hhi⟩ := h
  · exact decodeOffset_ne_unmapped_of_low off hlow halign
  · obtain ⟨i, j, hi, hj, rfl⟩ : ∃ i j, i < 10 ∧ j < 128 ∧ off = 0x1000 + 0x200 * i + 4 * j :=
      ⟨(off - 0x1000) / 0x200, (off - 0x1000) % 0x200 / 4, by omega, by omega, by omega⟩
    obtain ⟨x, -, hx⟩ := exists_decodeOffset_eq_word hi hj
    rw [hx]
    nofun

/-- A transaction on a mapped target gets OKAY (R61, R63). -/
theorem hostAccess_response_of_mapped {target : Target} (h : target ≠ .unmapped) (v : Word) :
    (∃ u, (s.hostAccess target .read).response = some (.readOkay u)) ∧
    (s.hostAccess target (.write v)).response = some .writeOkay := by
  cases target with
  | creg c => exact ⟨⟨_, rfl⟩, rfl⟩
  | word x j =>
    refine ⟨?_, rfl⟩
    obtain ⟨-, hr⟩ | ⟨-, -, hr⟩ | ⟨-, -, hr⟩ := hostReadWord_cases s x j <;> exact ⟨_, congrArg State.response hr⟩
  | unmapped => exact absurd rfl h

/-- A read of any target only answers, with a value or with an unspecified one (R67). -/
theorem hostAccess_read_cases (s : State) (target : Target) :
    (∃ r, s.hostAccess target .read = s.respond r) ∨ (∃ mk, s.hostAccess target .read = s.respondFree mk) := by
  cases target with
  | creg c => exact .inl ⟨_, rfl⟩
  | word x j =>
    obtain ⟨-, h⟩ | ⟨-, -, h⟩ | ⟨-, -, h⟩ := hostReadWord_cases s x j
    · exact .inl ⟨_, h⟩
    · exact .inr ⟨_, h⟩
    · exact .inl ⟨_, h⟩
  | unmapped => exact .inr ⟨_, rfl⟩

/-- A read, accepted or rejected, only answers (R67). -/
theorem hostStep_read_cases (s : State) {t : Txn} (h : t.access = .read) :
    (∃ r, hostStep t s = s.respond r) ∨ (∃ mk, hostStep t s = s.respondFree mk) := by
  cases hacc : t.accepted with
  | true =>
    have hstep : hostStep t s = s.hostAccess (decodeOffset t.off.toNat) .read := by rw [hostStep, if_pos hacc, h]
    rw [hstep]
    exact hostAccess_read_cases s _
  | false => exact .inr ⟨_, by rw [hostStep_rejected s hacc, h]; rfl⟩

theorem writeWord_of_lt (hfree : s.busy = false) (hj : j < s.params.nw) (v : Word) :
    s.writeWord x j v = s.setBig x (setBigWord (s.big.get x) j v) := by
  simp [State.writeWord, hfree, hj]

theorem writeWord_of_reserved (hfree : s.busy = false) (hj : s.params.nw ≤ j) (v : Word) : s.writeWord x j v = s := by
  simp [State.writeWord, hfree, Nat.not_lt.mpr hj]

/-- A register is a destination only of a running command (10_state.md R36). -/
theorem State.mem_dst :
    x ∈ s.dst ↔ ∃ w work i, s.eng = .busy w work ∧ decode w = .ok i ∧ x ∈ dstOf i := by
  constructor
  · intro hx
    cases heng : s.eng with
    | idle => simp [State.dst, State.running, heng] at hx
    | busy w work =>
      cases hd : decode w with
      | ok i => exact ⟨w, work, i, rfl, hd, by rwa [State.dst_eq heng, decode?_of_decode hd] at hx⟩
      | error e => simp [State.dst_eq heng, decode?, hd] at hx
  · rintro ⟨w, work, i, heng, hd, hx⟩
    rwa [State.dst_eq heng, decode?_of_decode hd]

/-- The words below `n` make up the number's low `32n` bits (20_memory.md R64). -/
theorem sum_bigWord (x n : Nat) : ∑ j ∈ Finset.range n, (bigWord x j).toNat * 2 ^ (32 * j) = x % 2 ^ (32 * n) := by
  induction n with
  | zero => simp [Nat.mod_one]
  | succ n ih =>
    rw [Finset.sum_range_succ, ih, bigWord_toNat, Nat.mul_succ, pow_add, Nat.mod_mul, Nat.mul_comm (2 ^ (32 * n))]

theorem octetsToNat_concat (em : List (BitVec 8)) (b : BitVec 8) :
    octetsToNat (em ++ [b]) = 256 * octetsToNat em + b.toNat := by
  simp [octetsToNat, List.foldl_append]

/-- The least significant octet stands last, after the octets of the quotient by 256 (20_memory.md R66). -/
theorem natToOctets_succ (k m : Nat) : natToOctets (k + 1) m = natToOctets k (m / 256) ++ [BitVec.ofNat 8 m] := by
  have hoctet : ∀ i ∈ List.range k, m / 2 ^ (8 * (k - i)) = m / 256 / 2 ^ (8 * (k - 1 - i)) := by
    intro i hi
    rw [List.mem_range] at hi
    rw [Nat.div_div_eq_div_mul, show 256 = 2 ^ 8 from rfl, ← pow_add, show 8 * (k - i) = 8 + 8 * (k - 1 - i) by omega]
  simp only [natToOctets, List.range_succ, List.map_append, List.map_cons, List.map_nil, Nat.add_sub_cancel,
    Nat.sub_self, Nat.mul_zero, pow_zero, Nat.div_one]
  rw [List.map_congr_left fun i hi => congrArg (BitVec.ofNat 8) (hoctet i hi)]

/-- The `k` octets of an integer hold its value mod `256^k`. -/
theorem octetsToNat_natToOctets (k : Nat) : ∀ m, octetsToNat (natToOctets k m) = m % 256 ^ k := by
  induction k with
  | zero => intro m; rw [pow_zero, Nat.mod_one]; rfl
  | succ k ih =>
    intro m
    calc octetsToNat (natToOctets (k + 1) m)
        = 256 * (m / 256 % 256 ^ k) + m % 256 := by
          rw [natToOctets_succ, octetsToNat_concat, ih, BitVec.toNat_ofNat]
      _ = m % 256 ^ (k + 1) := by rw [pow_succ', Nat.mod_mul, Nat.add_comm]

theorem natToOctets_length (k m : Nat) : (natToOctets k m).length = k := by simp [natToOctets]

end Sys2Proof.Machine

namespace Sys2Proof.Proofs

open Sys2Proof.Machine

/-- Settles O12: the offsets by their decode, the responses by whether the decode is mapped. -/
theorem addressDecode : Obligations.AddressDecode := by
  have hcreg := fun c => (decodeOffset_creg c).2
  refine ⟨⟨hcreg .id, hcreg .param, hcreg .ctrl, hcreg .status, hcreg .cmd, hcreg .bits, hcreg .rounds,
      hcreg .errcode⟩, fun i j => exists_decodeOffset_eq_word, fun off _ => decodeOffset_unmapped,
    fun s off v halign => ?_⟩
  rw [hostStep_rd s halign, hostStep_wr s v halign]
  refine ⟨fun hmapped => hostAccess_response_of_mapped (decodeOffset_ne_unmapped halign hmapped) v, fun hgap => ?_⟩
  rw [decodeOffset_unmapped hgap]
  exact ⟨⟨_, rfl⟩, rfl⟩

/-- Settles O20, by the words of a number whose word `j` was replaced. -/
theorem wordWriteReplacesOneWord : Obligations.WordWriteReplacesOneWord := by
  intro s x j v hidle hj
  have hfree : s.busy = false := State.busy_eq_false.mpr hidle
  rw [hostStep_wr_word s x v hj]
  refine ⟨fun hnw => ⟨_, congrArg (·.respond .writeOkay) (writeWord_of_lt hfree hnw v), fun k => ?_⟩,
    fun hnw => congrArg (·.respond .writeOkay) (writeWord_of_reserved hfree hnw v)⟩
  rw [← bigWord_toNat, ← bigWord_toNat, bigWord_setBigWord, apply_ite BitVec.toNat]

/-- Settles O21: of the three cases of a window read, the hypothesis leaves out the destination. -/
theorem wordReadsAreExact : Obligations.WordReadsAreExact := by
  intro s x j hj h
  rw [hostStep_rd_word s x hj]
  obtain ⟨hnw, hr⟩ | ⟨hnw, hdst, -⟩ | ⟨hnw, -, hr⟩ := hostReadWord_cases s x j
  · exact ⟨_, hr, (if_neg (Nat.not_lt.mpr hnw)).symm⟩
  · obtain ⟨w, work, i, hbusy, hd, hx⟩ := State.mem_dst.mp hdst
    exact absurd hx (h.resolve_left (Nat.not_le.mpr hnw) w work i hbusy hd)
  · exact ⟨_, hr, (bigWord_toNat _ _).trans (if_pos hnw).symm⟩

/-- Settles O26: the words below `W / 32` are all of a number below `2^W`. -/
theorem bigNumberIsTheSumOfItsWords : Obligations.BigNumberIsTheSumOfItsWords := by
  intro w x hw hx
  rw [sum_bigWord, Nat.mul_div_cancel' (Nat.dvd_of_mod_eq_zero hw), Nat.mod_eq_of_lt hx]

/-- Settles O28; an integer below `256^k` is its own residue. -/
theorem octetsRoundTrip : Obligations.OctetsRoundTrip := fun k m hm =>
  ⟨(octetsToNat_natToOctets k m).trans (Nat.mod_eq_of_lt hm), natToOctets_length k m⟩

/-- Settles O24: each of the two answers of a read changes the response and the count alone. -/
theorem readsHaveNoSideEffect : Obligations.ReadsHaveNoSideEffect := by
  intro s off size strobes
  obtain ⟨r, h⟩ | ⟨mk, h⟩ := hostStep_read_cases s (t := ⟨off, size, strobes, .read⟩) rfl
  · rw [h]; rfl
  · rw [h]; rfl

end Sys2Proof.Proofs
end

section
/-! PROOFS. The command word and the host statements (30_encoding.md R81 to R87): the words that select a command, how a
word is accepted, run or rejected, and what the word writes of LOADBIG leave in a register. -/

namespace Sys2Proof.Machine

variable {s : State} {w : Word} {work : Work} {i : Instr}

/-! ### The words that select a command -/

theorem decode_encode (i : Instr) : decode (encode i) = .ok i := by cases i <;> rfl

theorem decode?_eq_some_iff : decode? w = some i ↔ w = encode i :=
  ⟨eq_encode_of_decode?, fun h => h ▸ decode?_encode i⟩

theorem decode_eq_ok_iff : decode w = .ok i ↔ w = encode i :=
  ⟨fun h => eq_encode_of_decode? (decode?_of_decode h), fun h => h ▸ decode_encode i⟩

theorem encode_toNat_le (i : Instr) : (encode i).toNat ≤ 7 := by cases i <;> decide

/-- A word above the last one of the opcode map selects no command (R82). -/
theorem decode?_eq_none_of_lt (h : 7 < w.toNat) : decode? w = none := by
  refine Option.eq_none_iff_forall_ne_some.mpr fun i hi => ?_
  rw [decode?_eq_some_iff.mp hi] at h
  exact absurd (encode_toNat_le i) (Nat.not_le.mpr h)

/-! ### Acceptance and the engine step of a running word -/

/-- Acceptance clears PRIME exactly for the word of IS_PRIME (R81). -/
theorem State.accept_prime_eq_ite (s : State) (w : Word) :
    (s.accept w).status.prime = if w = encode .isPrime then false else s.status.prime := by
  rw [State.accept_prime]
  split_ifs with hw
  · rw [decode?_eq_some_iff.mpr hw]
    exact Bool.and_false _
  · rw [beq_false_of_ne fun h => hw (decode?_eq_some_iff.mp h)]
    exact Bool.and_true _

theorem engineStep_of_decode (hbusy : s.eng = .busy w work) (h : decode w = .ok i) : engineStep s = exec i s := by
  simp only [engineStep, hbusy, h]

/-- A word that selects no command ends with ILLEGAL_CMD (R84). -/
theorem engineStep_of_illegal (hbusy : s.eng = .busy w work) (ha : s.abortPending = false) (h : decode? w = none) :
    engineStep s = .next (s.raiseError .illegalCmd) := by
  cases hd : decode w with
  | ok i => rw [decode?_of_decode hd] at h; cases h
  | error e => simp [engineStep, execIllegal, State.engineTurn, hbusy, hd, ha]

theorem step_of_engine {es : List Event} {ds : List Nat} {q : Nat} (h : s.inputs = .engine ds q :: es) :
    step s = engineStep { s with inputs := es, entropy := ds, quantum := q } := by
  simp only [step, State.nextEvent, State.takeEvent, runEvent, State.offer, h]

/-! ### The word writes of LOADBIG -/

@[simp] theorem BigRegs.set_set (b : BigRegs) (x : BigReg) (u v : Nat) : (b.set x u).set x v = b.set x v := by
  cases x <;> rfl

@[simp] theorem BigRegs.set_get_self (b : BigRegs) (x : BigReg) : b.set x (b.get x) = b := by cases x <;> rfl

@[simp] theorem wordOfInt_toNat (v : Word) : wordOfInt (v.toNat : Int) = v := by
  simp [wordOfInt]

theorem Params.w_eq_of_legal {p : Params} (h : p.legal = true) : p.w = 32 * p.nw := by
  simp only [Params.legal, Bool.and_eq_true, beq_iff_eq] at h
  unfold Params.nw
  omega

theorem Params.nw_le_of_legal {p : Params} (h : p.legal = true) : p.nw ≤ 128 := by
  simp only [Params.legal, Bool.and_eq_true, decide_eq_true_eq] at h
  unfold Params.nw
  omega

/-- The number whose words below `k` are those of `v` and whose other words are those of `u`. -/
def mixWords (u v k : Nat) : Nat := u / 2 ^ (32 * k) * 2 ^ (32 * k) + v % 2 ^ (32 * k)

theorem mixWords_zero (u v : Nat) : mixWords u v 0 = u := by
  simp [mixWords, Nat.mod_one]

/-- The next word of `v` replaces the next word of `u`. -/
theorem setBigWord_mixWords (u v k : Nat) : setBigWord (mixWords u v k) k (bigWord v k) = mixWords u v (k + 1) := by
  have hsplit : 2 ^ (32 * (k + 1)) = 2 ^ (32 * k) * 2 ^ 32 := by rw [Nat.mul_succ, pow_add]
  have hv : v % 2 ^ (32 * k) < 2 ^ (32 * k) := Nat.mod_lt _ (Nat.two_pow_pos _)
  have hdiv : mixWords u v k / 2 ^ (32 * k) = u / 2 ^ (32 * k) := by
    rw [mixWords, Nat.mul_comm, Nat.mul_add_div (Nat.two_pow_pos _), Nat.div_eq_of_lt hv, Nat.add_zero]
  have hmod : mixWords u v k % 2 ^ (32 * k) = v % 2 ^ (32 * k) := by
    rw [mixWords, Nat.mul_add_mod_self_right, Nat.mod_mod]
  have hupper : mixWords u v k / 2 ^ (32 * (k + 1)) = u / 2 ^ (32 * (k + 1)) := by
    rw [hsplit, ← Nat.div_div_eq_div_mul, hdiv, Nat.div_div_eq_div_mul]
  have hlower : v % 2 ^ (32 * (k + 1)) = v % 2 ^ (32 * k) + 2 ^ (32 * k) * (bigWord v k).toNat := by
    rw [hsplit, Nat.mod_mul, bigWord_toNat]
  rw [setBigWord, hupper, hmod, mixWords, hlower]
  ring

/-- Once all words below the width are replaced, nothing of `u` is left. -/
theorem mixWords_of_lt {u v k : Nat} (hu : u < 2 ^ (32 * k)) (hv : v < 2 ^ (32 * k)) : mixWords u v k = v := by
  rw [mixWords, Nat.div_eq_of_lt hu, Nat.mod_eq_of_lt hv, Nat.zero_mul, Nat.zero_add]

theorem hostStep_wr_word_of_idle (x : BigReg) {j : Nat} (v : Word) (hidle : s.eng = .idle) (hj : j < s.params.nw)
    (hlegal : s.params.legal = true) : hostStep (.wr (BitVec.ofNat 16 (bigOffset x j)) v) s =
      (s.setBig x (setBigWord (s.big.get x) j v)).respond .writeOkay := by
  rw [hostStep_wr_word s x v (hj.trans_le (Params.nw_le_of_legal hlegal)),
    writeWord_of_lt (State.busy_eq_false.mpr hidle) hj]

/-- The first `k` word writes of `LOADBIG x, v` (R87) replace the words below `k` and are all answered OKAY. -/
theorem foldl_hostStep_wr_word (x : BigReg) (v : Nat) (hidle : s.eng = .idle) (hlegal : s.params.legal = true) :
    ∀ k ≤ s.params.nw, (List.range k).foldl
        (fun t j => hostStep (.wr (BitVec.ofNat 16 (bigOffset x j)) (bigWord v j)) t) s =
      { s with
        big      := s.big.set x (mixWords (s.big.get x) v k)
        response := if k = 0 then s.response else some .writeOkay } := by
  intro k
  induction k with
  | zero => intro _; simp [mixWords_zero]
  | succ k ih =>
    intro hk
    rw [List.range_succ, List.foldl_append, ih (Nat.le_of_succ_le hk), List.foldl_cons, List.foldl_nil,
      hostStep_wr_word_of_idle]
    case hidle => exact hidle
    case hj => exact hk
    case hlegal => exact hlegal
    simp [State.setBig, State.respond, BigRegs.get_set, setBigWord_mixWords]

end Sys2Proof.Machine

namespace Sys2Proof.Proofs

open Sys2Proof.Machine

/-- Settles O2: a word that selects `i` is `encode i`, whose value is at most 7. -/
theorem onlyTheExactWordSelects : Obligations.OnlyTheExactWordSelects :=
  ⟨fun _ _ => decode_eq_ok_iff, ⟨rfl, rfl, rfl, rfl, rfl, rfl, rfl, rfl⟩, fun _ => decode?_eq_none_of_lt⟩

/-- Settles O3: either kind of illegal word is above 7, so it selects no command. -/
theorem illegalWordEndsWithItsCode : Obligations.IllegalWordEndsWithItsCode := by
  intro s w work hbusy ha hillegal
  have habove : 7 < w.toNat := by omega
  exact engineStep_of_illegal hbusy ha (decode?_eq_none_of_lt habove)

/-- Settles O27: the NW word writes replace every word of the register. -/
theorem loadbigLoadsTheNumber : Obligations.LoadbigLoadsTheNumber := by
  intro s x v hidle hlegal hx hv
  have hnw : s.params.nw ≠ 0 := by
    have hw := Params.sixtyFour_le hlegal
    have hwords := Params.w_eq_of_legal hlegal
    omega
  rw [Params.w_eq_of_legal hlegal] at hx hv
  have hloaded := foldl_hostStep_wr_word x v hidle hlegal s.params.nw le_rfl
  rw [mixWords_of_lt hx hv, if_neg hnw] at hloaded
  simpa only [PseudoStmt.expand, List.foldl_map, HostStmt.txn, HostExpr.eval, wordOfInt_toNat] using hloaded

/-- Settles O1: the exact words are the encodings of the commands, the four others are decoded by the field at fault. -/
theorem wordsDecodeAsWritten : Obligations.WordsDecodeAsWritten :=
  ⟨decode_encode .nop, decode_encode .isPrime, decode_encode .genPrime, decode_encode .genKeys, decode_encode .modexp,
    decode_encode .gcd, decode_encode .modinv, decode_encode .zeroize, rfl, rfl, rfl, rfl⟩

/-- Settles O4: the write is an acceptance, which clears PRIME exactly if the word selects IS_PRIME. -/
theorem cmdWriteAccepts : Obligations.CmdWriteAccepts := by
  intro s w hidle
  have hprime : (s.accept w).status.prime = if w = 1 then false else s.status.prime := State.accept_prime_eq_ite s w
  calc hostStep (.wr 0x010 w) s
      = (s.writeCReg .cmd w).respond .writeOkay := hostStep_wr_creg s .cmd w
    _ = (s.accept w).respond .writeOkay := by simp [State.writeCReg, State.busy_eq_false.mpr hidle]
    _ = _ := by rw [← hprime]; rfl

/-- Settles O5: the step takes the engine event, and the engine runs what the word decodes to. -/
theorem stepRunsTheDecodedCommand : Obligations.StepRunsTheDecodedCommand := by
  intro s es ds q w work i hinputs hbusy hd
  rw [step_of_engine hinputs]
  exact engineStep_of_decode hbusy hd

end Sys2Proof.Proofs
end

section
/-! PROOFS. Prime testing and generation (40_prime_testing.md R100 to R107): a command ends as its pseudocode in one
piece, or waits with it for draws; what IS_PRIME and GEN_PRIME do follows from that pseudocode. -/

namespace Sys2Proof.Machine

/-! ### An engine step of an accepted command against the pseudocode in one piece -/

section

variable {s : State} {i : Instr}

/-- The first engine step of a command is a burst of its machine from the start. -/
theorem exec_of_started (h : s.Started i) (q : Nat) : exec i (s.withQuantum q) =
    .next ((s.withQuantum q).afterBurst (encode i)
      (burst (commandMicro i s.operands) (q + 1) s.entropy .start)) := by
  obtain ⟨hbusy, ha⟩ := h
  exact exec_busy (s := s.withQuantum q) hbusy ha

/-- Where the pseudocode ends, a long enough step ends as it does, and a shorter one leaves the command running. -/
theorem exec_of_ending_eq_some {e : Ending} {rest : List Nat} (h : s.Started i)
    (hend : ending i s.operands s.entropy = some (e, rest)) :
    ∃ q0 : Nat,
      (∀ q, q0 ≤ q → exec i (s.withQuantum q) =
        .next ((s.withQuantum q).afterBurst (encode i) (.finished e rest))) ∧
      (∀ q, q < q0 → ∃ t : State, exec i (s.withQuantum q) = .next t ∧ t.busy = true) := by
  have hsettles := command_settles i s.operands s.entropy
  rw [hend] at hsettles
  obtain ⟨n, hlong, hshort⟩ := hsettles.burst_some
  refine ⟨n, fun q hq => ?_, fun q hq => ?_⟩
  · rw [exec_of_started h, hlong (q + 1) (by omega)]
  · obtain ⟨work, ds, hpaused⟩ := hshort (q + 1) (by omega)
    exact ⟨_, exec_of_started h q, by rw [hpaused]; rfl⟩

/-- A successful end of the pseudocode is the completion of every long enough step. -/
theorem exec_completes {e : Effect} {rest : List Nat} (h : s.Started i)
    (hend : ending i s.operands s.entropy = some (.success e, rest)) :
    ∃ q0 : Nat, ∀ q, q0 ≤ q →
      exec i (s.withQuantum q) = .next (((s.withQuantum q).useDraws rest).complete e) := by
  obtain ⟨q0, hlong, -⟩ := exec_of_ending_eq_some h hend
  exact ⟨q0, hlong⟩

/-- Where the pseudocode wants a draw that is not there, every step pauses. -/
theorem exec_of_ending_eq_none (h : s.Started i) (hend : ending i s.operands s.entropy = none) (q : Nat) :
    ∃ work rest, exec i (s.withQuantum q) =
      .next { (s.withQuantum q).useDraws rest with eng := .busy (encode i) work } := by
  have hsettles := command_settles i s.operands s.entropy
  rw [hend] at hsettles
  obtain ⟨work, rest, hpaused⟩ := hsettles.burst_none (q + 1)
  exact ⟨work, rest, by rw [exec_of_started h, hpaused]; rfl⟩

/-- ROUNDS read as a number is 0 only if the register is. -/
theorem State.operands_t_ne_zero (h : s.rounds ≠ 0) : s.operands.t ≠ 0 :=
  fun ht => h (BitVec.eq_of_toNat_eq ht)

/-- IS_PRIME on a number decided by the checks of R101 completes in its second micro-operation, with no draw. -/
theorem exec_isPrime_of_check {v : Bool} (h : s.Started .isPrime) (hrounds : s.rounds ≠ 0) (hq : 1 ≤ s.quantum)
    (hcheck : ∀ draw, mrMicro s.operands.t draw (.check s.big.a) = .finish v) :
    exec .isPrime s = .next { s.succeeded with status := ⟨true, false, v, s.status.overrun⟩ } := by
  obtain ⟨hbusy, ha⟩ := h
  have hstart : Runs (commandMicro .isPrime s.operands) 1 s.entropy .start s.entropy (.test (.check s.big.a)) :=
    .one (if_neg (State.operands_t_ne_zero hrounds))
  have hfinish : commandMicro .isPrime s.operands s.entropy.head? (.test (.check s.big.a)) =
      .finish (.success (.verdict v)) := by
    simp [commandMicro, isPrimeMicro, hcheck, Micro.lift]
  rw [exec_of_runs hbusy ha hstart hfinish hq]
  simp only [State.afterBurst, State.useDraws_self]
  rfl

/-- With an answer for each round, the pseudocode of IS_PRIME ends with `MRw` on the witnesses drawn (R100, R102). -/
theorem ending_isPrime (hrounds : s.rounds ≠ 0) (hlen : s.rounds.toNat ≤ s.entropy.length) :
    ∃ rest, ending .isPrime s.operands s.entropy = some (.success (.verdict (mrw s.big.a s.rounds.toNat
      ((s.entropy.take s.rounds.toNat).map (drawRange 2 (s.big.a - 2))))), rest) := by
  obtain ⟨rest, htest⟩ := millerRabin_eq_mrw s.operands.a s.operands.t s.entropy hlen
  refine ⟨rest, ?_⟩
  simp only [ending, if_neg (State.operands_t_ne_zero hrounds), htest]
  rfl

end

/-! ### The test accepts every prime -/

/-- `MRw` accepts a prime on every witness list (R103). -/
theorem mrw_of_prime {p t : Nat} (hp : Nat.Prime p) (answers : List Nat) :
    mrw p t (answers.map (drawRange 2 (p - 2))) = true := by
  have htwo := hp.two_le
  by_cases hsmall : p = 2 ∨ p = 3
  · simp [mrw, show ¬ p ≤ 1 by omega, hsmall]
  have hodd : p % 2 = 1 := hp.eq_two_or_odd.resolve_left (by omega)
  obtain ⟨-, hsplit⟩ := splitOdd_spec htwo
  simp only [mrw, show ¬ p ≤ 1 by omega, hsmall, show ¬ p % 2 = 0 by omega, if_false, List.all_eq_true]
  intro a ha
  obtain ⟨raw, -, rfl⟩ := List.mem_map.mp (List.mem_of_mem_take ha)
  obtain ⟨hlo, hhi⟩ := drawRange_mem (by omega : 2 ≤ p - 2) raw
  exact roundAccepts_of_prime hp (by omega) hsplit hlo hhi

/-- The search returns its first candidate if that is prime and each round has an answer (R105). -/
theorem primeLoop_of_prime {bits t k c : Nat} {ds : List Nat} (hcand : candidate bits c = c) (hc : Nat.Prime c)
    (hlen : t ≤ ds.length) : ∃ rest, primeLoop bits t (k + 1) (c :: ds) = some (c, rest) := by
  obtain ⟨rest, htest⟩ := millerRabin_eq_mrw c t ds hlen
  rw [mrw_of_prime hc] at htest
  exact ⟨rest, by simp only [primeLoop, hcand, htest]⟩

/-! ### The search cannot end on the candidate 9 -/

/-- 9 has no strong liar in the range of a witness (R107). -/
theorem roundAccepts_nine (raw : Nat) :
    roundAccepts 9 (splitOdd 9).1 (splitOdd 9).2 (drawRange 2 7 raw) = false := by
  have hnoLiar : ∀ a, 2 ≤ a → a ≤ 7 → roundAccepts 9 (splitOdd 9).1 (splitOdd 9).2 a = false := by decide
  obtain ⟨hlo, hhi⟩ := drawRange_mem (by decide : 2 ≤ 7) raw
  exact hnoLiar _ hlo hhi

theorem millerRabin_nine_nil (t : Nat) : millerRabin 9 (t + 1) [] = none := rfl

/-- The first witness rejects 9. -/
theorem millerRabin_nine_cons (t raw : Nat) (ds : List Nat) :
    millerRabin 9 (t + 1) (raw :: ds) = some (false, ds) := by
  simp [millerRabin, mrRounds, roundAccepts_nine]

theorem candidate_four_of_mod {raw : Nat} (h : raw % 16 = 8) : candidate 4 raw = 9 := by
  simp [candidate, drawBits, h]

/-- The search of 4 bits does not end on answers that all give 9 (R107). -/
theorem primeLoop_nine (t : Nat) : ∀ k ds, (∀ raw ∈ ds, raw % 16 = 8) → primeLoop 4 (t + 1) k ds = none := by
  intro k
  induction k with
  | zero => intro ds _; rfl
  | succ k ih =>
    intro ds h
    cases ds with
    | nil => rfl
    | cons raw ds =>
      obtain ⟨hraw, hds⟩ := List.forall_mem_cons.mp h
      cases ds with
      | nil => simp only [primeLoop, candidate_four_of_mod hraw, millerRabin_nine_nil]
      | cons witness ds =>
        simp only [primeLoop, candidate_four_of_mod hraw, millerRabin_nine_cons]
        exact ih ds (List.forall_mem_cons.mp hds).2

end Sys2Proof.Machine

namespace Sys2Proof.Proofs

open Sys2Proof.Machine

/-- Settles O37: the burst of the step gets to where the pseudocode gets to, `command_settles`. -/
theorem commandsEndAsTheirPseudocode : Obligations.CommandsEndAsTheirPseudocode :=
  fun _ _ _ _ => exec_of_ending_eq_some

/-- Settles O38: a step that pauses writes nothing but the working values and the draws. -/
theorem commandsWaitForDraws : Obligations.CommandsWaitForDraws := by
  intro i s hstart hend q
  obtain ⟨work, rest, hexec⟩ := exec_of_ending_eq_none hstart hend q
  exact ⟨_, hexec, rfl, rfl, rfl, rfl⟩

/-- Settles O49: of the endings of GEN_PRIME only the success leaves ERROR at 0, and its result is a probable prime. -/
theorem genPrimeResultSet : Obligations.GenPrimeResultSet := by
  intro s t hinv hruns hexec hidle herr
  obtain ⟨e, rest, hend, rfl⟩ := exec_ends hinv hruns hexec hidle
  obtain ⟨-, rfl⟩ | ⟨-, -, -, rfl⟩ | ⟨-, c, rfl, ⟨hodd, hlo, hhi⟩, haccepted⟩ := hend
  · cases herr
  · cases herr
  · exact ⟨hodd, hlo, hhi, haccepted⟩

/-- Settles O44: these are the numbers the three checks before the first witness decide. -/
theorem isPrimeCornerCases : Obligations.IsPrimeCornerCases := by
  intro s hstart hrounds hq
  refine ⟨fun hcomposite => exec_isPrime_of_check hstart hrounds hq fun draw => ?_,
    fun hprime => exec_isPrime_of_check hstart hrounds hq fun draw => ?_⟩
  · by_cases hle : s.big.a ≤ 1
    · simp [mrMicro, hle]
    · obtain ⟨heven, hge⟩ := hcomposite.resolve_left hle
      simp [mrMicro, hle, heven, show ¬ (s.big.a = 2 ∨ s.big.a = 3) by omega]
  · simp [mrMicro, hprime, show ¬ s.big.a ≤ 1 by omega]

/-- Settles O45: the pseudocode's verdict is `MRw` on the witnesses drawn, and the step completes with it. -/
theorem isPrimeVerdictFollowsTheWitnesses : Obligations.IsPrimeVerdictFollowsTheWitnesses := by
  intro s hstart hrounds hlen
  obtain ⟨rest, hend⟩ := ending_isPrime hrounds hlen
  obtain ⟨q0, hcompletes⟩ := exec_completes hstart hend
  exact ⟨q0, fun q hq => ⟨_, hcompletes q hq, rfl, rfl, rfl, rfl⟩⟩

/-- Settles O46: `MRw` accepts a prime on every witness list. -/
theorem isPrimeAcceptsEveryPrime : Obligations.IsPrimeAcceptsEveryPrime := by
  intro s hstart hrounds hlen hprime
  obtain ⟨q0, hverdict⟩ := isPrimeVerdictFollowsTheWitnesses s hstart hrounds hlen
  refine ⟨q0, fun q hq => ?_⟩
  obtain ⟨t, hexec, hidle, herrcode, hbig, hstatus⟩ := hverdict q hq
  rw [mrw_of_prime hprime] at hstatus
  exact ⟨t, hexec, hidle, hstatus, herrcode, hbig⟩

/-- Settles O48: an odd prime of the bit length is its own candidate, and passes on every witness list. -/
theorem genPrimeCanReturnEveryPrime : Obligations.GenPrimeCanReturnEveryPrime := by
  intro s c ws hstart hmin hmax hrounds hprime hlo hhi hentropy hlen
  have hodd : c % 2 = 1 := by
    have htop : 2 ^ 1 ≤ 2 ^ (s.bits.toNat - 1) := Nat.pow_le_pow_right two_pos (by omega)
    exact hprime.eq_two_or_odd.resolve_left (by omega)
  obtain ⟨rest, hloop⟩ : ∃ rest, primeLoop s.bits.toNat s.rounds.toNat (ws.length + 1) (c :: ws) = some (c, rest) :=
    primeLoop_of_prime (candidate_self hmin hodd hlo hhi) hprime hlen
  have hbits : ¬ (s.operands.bits < 2 ∨ s.operands.w < s.operands.bits) := not_or.mpr ⟨hmin.not_gt, hmax.not_gt⟩
  have hend : ending .genPrime s.operands s.entropy = some (.success (.result c), rest) := by
    simp only [ending, if_neg hbits, if_neg (State.operands_t_ne_zero hrounds), hentropy, List.length_cons]
    exact congrArg (Option.map _) hloop
  obtain ⟨q0, hcompletes⟩ := exec_completes hstart hend
  exact ⟨q0, fun q hq => ⟨_, hcompletes q hq, rfl, rfl, rfl, rfl⟩⟩

/-- Settles O50: every candidate is 9, which every witness rejects, so the pseudocode does not end. -/
theorem genPrimeCanHang : Obligations.GenPrimeCanHang := by
  intro s hstart hbits hw hrounds hdraws q
  have hbits4 : s.operands.bits = 4 := congrArg BitVec.toNat hbits
  have hchecks : ¬ (4 < 2 ∨ s.operands.w < 4) := by have : 4 ≤ s.operands.w := hw; omega
  obtain ⟨t, ht⟩ := Nat.exists_eq_succ_of_ne_zero (State.operands_t_ne_zero hrounds)
  have hend : ending .genPrime s.operands s.entropy = none := by
    simp only [ending, hbits4, if_neg hchecks, ht]
    rw [primeLoop_nine t _ _ hdraws]
    rfl
  obtain ⟨work, rest, hexec⟩ := exec_of_ending_eq_none hstart hend q
  exact ⟨_, hexec, rfl⟩

/-- Settles O47, by computing `MRw` on the fixed numbers. -/
theorem liarsAdmitBothVerdicts : Obligations.LiarsAdmitBothVerdicts := by
  have hliars : ∀ a : Nat, 2 ≤ a → a ≤ 23 → (mrw 25 1 [a] = true ↔ a = 7 ∨ a = 18) := by decide
  exact ⟨by decide, by decide, hliars, by decide⟩

end Sys2Proof.Proofs
end

section
/-! PROOFS. Key generation (41_key_generation.md R120 to R130): what the six registers hold after every successful
GEN_KEYS, the key pair that primes delivered by the draws make, and draws on which GEN_KEYS does not end. -/

namespace Sys2Proof.Machine

/-! ### What a successful GEN_KEYS leaves -/

/-- A GEN_KEYS that succeeds passed its checks and leaves a key pair in its six registers. -/
theorem exec_genKeys_keyPairOk {s t : State} (hinv : s.Inv) (hruns : s.RunsFree .genKeys)
    (hexec : exec .genKeys s = .next t) (hidle : t.eng = .idle) (hok : t.status.error = false) :
    s.operands.keyChecks ∧ KeyPairOk (s.bits.toNat / 2) s.rounds.toNat
      t.big.p t.big.q t.big.n t.big.phi t.big.e t.big.d := by
  obtain ⟨e, rest, hend, rfl⟩ := exec_ends hinv hruns hexec hidle
  obtain ⟨-, rfl⟩ | ⟨-, -, -, -, rfl⟩ | ⟨hchecks, p, q, n, phi, k, d, rfl, hpair⟩ := hend
  · cases hok
  · cases hok
  · exact ⟨hchecks, hpair⟩

/-- BITS that pass the checks are twice the primes' length, which is at least 3 (R120). -/
theorem Operands.keyChecks.half {o : Operands} (h : o.keyChecks) : 3 ≤ o.bits / 2 ∧ 2 * (o.bits / 2) = o.bits := by
  obtain ⟨hmin, -, heven, -⟩ := h
  omega

theorem bitlen_eq {v k : Nat} (hk : k ≠ 0) (hlo : 2 ^ (k - 1) ≤ v) (hhi : v < 2 ^ k) : bitlen v = k := by
  have hv : v ≠ 0 := ((Nat.two_pow_pos _).trans_le hlo).ne'
  rw [← Nat.sub_one_add_one hk] at hhi
  rw [bitlen, if_neg hv, (Nat.log2_eq_iff hv).mpr ⟨hlo, hhi⟩, Nat.sub_one_add_one hk]

theorem IsCandidate.bitlen_eq {bits c : Nat} (hbits : bits ≠ 0) (h : IsCandidate bits c) : bitlen c = bits := by
  obtain ⟨-, hlo, hhi⟩ := h
  exact Machine.bitlen_eq hbits hlo.le hhi

/-- The candidates of 3 bits (R129). -/
theorem IsCandidate.eq_five_or_seven {c : Nat} (h : IsCandidate 3 c) : c = 5 ∨ c = 7 := by
  obtain ⟨hodd, hlo, hhi⟩ := h
  omega

/-- The modulus is at least the product of the primes' top bits (R126). -/
theorem PrimePair.two_pow_le_mul {h t p q : Nat} (hpq : PrimePair h t p q) : 2 ^ (2 * h - 2) ≤ p * q := by
  obtain ⟨⟨⟨-, hp, -⟩, -⟩, ⟨⟨-, hq, -⟩, -⟩, -⟩ := hpq
  calc 2 ^ (2 * h - 2) = 2 ^ (h - 1) * 2 ^ (h - 1) := by rw [← pow_add]; congr 1; omega
    _ ≤ p * q := Nat.mul_le_mul hp.le hq.le

/-! ### The public exponent -/

theorem prime_e0 : Nat.Prime Config.e0 := by norm_num [Config.e0]

/-- The first exponent has a common factor with `phi` only if it divides it, for it is prime (R123). -/
theorem e0_dvd_of_gcd_ne_one {phi : Nat} (h : Nat.gcd Config.e0 phi ≠ 1) : Config.e0 ∣ phi :=
  not_not.mp fun hdvd => h ((Nat.Prime.coprime_iff_not_dvd prime_e0).mpr hdvd)

/-- A candidate one above a multiple of 65537 is odd, so it is at least 131075, which has 18 bits (R123). -/
theorem IsCandidate.eighteen_le_of_e0_dvd {bits c : Nat} (h : IsCandidate bits c) (hdvd : Config.e0 ∣ c - 1) :
    18 ≤ bits := by
  obtain ⟨hodd, hlo, hhi⟩ := h
  have htop := Nat.two_pow_pos (bits - 1)
  have hboth : 2 * Config.e0 ∣ c - 1 := Nat.Coprime.mul_dvd_of_dvd_of_dvd (by decide) (by omega) hdvd
  have hlt : 2 ^ 17 < 2 ^ bits := calc
    2 ^ 17 < 2 * Config.e0 := by decide
    _ ≤ c - 1 := Nat.le_of_dvd (by omega) hboth
    _ ≤ c := Nat.sub_le c 1
    _ < 2 ^ bits := hhi
  exact (Nat.pow_lt_pow_iff_right (n := 17) Nat.one_lt_two).mp hlt

/-- The fallback of R123 needs primes of at least 18 bits. -/
theorem PrimePair.eighteen_le_of_e0_dvd {h t p q : Nat} (hpq : PrimePair h t p q) (hdvd : Config.e0 ∣ phiOf p q) :
    18 ≤ h := by
  obtain ⟨⟨hp, -⟩, ⟨hq, -⟩, -⟩ := hpq
  obtain hdvd | hdvd := (Nat.Prime.dvd_mul prime_e0).mp hdvd
  · exact hp.eighteen_le_of_e0_dvd hdvd
  · exact hq.eighteen_le_of_e0_dvd hdvd

/-- The first exponent is kept if it is coprime to `phi` (R123). -/
theorem TrialE.eq_e0 {phi e : Nat} (h : TrialE phi e) (hcoprime : Nat.gcd Config.e0 phi = 1) : e = Config.e0 :=
  h.resolve_right fun hne => hne.1 hcoprime

/-! ### Primes delivered by the draws -/

/-- A prime of exactly `h` bits, above `2^(h-1)`: for `h` of at least 3 it is a candidate (40_prime_testing.md R104). -/
def PrimeOfLength (h p : Nat) : Prop := Nat.Prime p ∧ 2 ^ (h - 1) < p ∧ p < 2 ^ h

theorem PrimeOfLength.five_le {h p : Nat} (hh : 3 ≤ h) (hp : PrimeOfLength h p) : 5 ≤ p := by
  obtain ⟨-, hlo, -⟩ := hp
  have htop : 2 ^ 2 ≤ 2 ^ (h - 1) := Nat.pow_le_pow_right two_pos (by omega)
  omega

/-- Such a prime is the candidate of the answer that it is itself. -/
theorem PrimeOfLength.candidate_eq {h p : Nat} (hh : 3 ≤ h) (hp : PrimeOfLength h p) : candidate h p = p := by
  have h5 := hp.five_le hh
  obtain ⟨hprime, hlo, hhi⟩ := hp
  exact candidate_self (by omega) (hprime.eq_two_or_odd.resolve_left (by omega)) hlo hhi

theorem roundAccepts_drawRange_of_prime {n : Nat} (hn : Nat.Prime n) (h5 : 5 ≤ n) (raw : Nat) :
    roundAccepts n (splitOdd n).1 (splitOdd n).2 (drawRange 2 (n - 2) raw) = true := by
  obtain ⟨hlo, hhi⟩ := drawRange_mem (by omega : 2 ≤ n - 2) raw
  exact roundAccepts_of_prime hn h5 (splitOdd_spec hn.two_le).2 hlo hhi

/-- Rounds that all accept use one answer each. -/
theorem mrRounds_of_accepts {n d r : Nat} (h : ∀ raw, roundAccepts n d r (drawRange 2 (n - 2) raw) = true) :
    ∀ t ds, mrRounds n d r t ds = if t ≤ ds.length then some (true, ds.drop t) else none := by
  intro t
  induction t with
  | zero => intro ds; rfl
  | succ t ih =>
    intro ds
    cases ds with
    | nil => rfl
    | cons raw ds => simp [mrRounds, h, ih]

/-- The test accepts a prime once each round has an answer, and waits until then. -/
theorem millerRabin_of_prime {n : Nat} (hn : Nat.Prime n) (h5 : 5 ≤ n) (t : Nat) (ds : List Nat) :
    millerRabin n t ds = if t ≤ ds.length then some (true, ds.drop t) else none := by
  have hodd : n % 2 = 1 := hn.eq_two_or_odd.resolve_left (by omega)
  simp only [millerRabin, show ¬ n ≤ 1 by omega, show ¬ (n = 2 ∨ n = 3) by omega, show ¬ n % 2 = 0 by omega, if_false]
  exact mrRounds_of_accepts (roundAccepts_drawRange_of_prime hn h5) t ds

/-- The search returns a prime candidate once each round has an answer, and waits until then (R121). -/
theorem primeLoop_of_prime_candidate {bits raw c : Nat} (hcand : candidate bits raw = c) (hc : Nat.Prime c)
    (h5 : 5 ≤ c) (t k : Nat) (ds : List Nat) :
    primeLoop bits t (k + 1) (raw :: ds) = if t ≤ ds.length then some (c, ds.drop t) else none := by
  simp only [primeLoop, hcand, millerRabin_of_prime hc h5]
  split_ifs
  · rfl
  · rfl

/-- A prime of the search's length, then an answer for each round, is what the search returns (R121). -/
theorem primeLoop_of_delivered {h t p : Nat} {ws : List Nat} (hh : 3 ≤ h) (hp : PrimeOfLength h p)
    (hws : ws.length = t) (k : Nat) (rest : List Nat) :
    primeLoop h t (k + 1) (p :: (ws ++ rest)) = some (p, rest) := by
  subst hws
  simp [primeLoop_of_prime_candidate (hp.candidate_eq hh) hp.1 (hp.five_le hh)]

/-- If it is not the first prime, the search for the second one returns it too (R122). -/
theorem distinctPrime_of_delivered {h t p q : Nat} {ws : List Nat} (hh : 3 ≤ h) (hq : PrimeOfLength h q) (hne : p ≠ q)
    (hws : ws.length = t) (k : Nat) (rest : List Nat) :
    distinctPrime h t p (k + 1) (q :: (ws ++ rest)) = some (q, rest) := by
  have hloop : primeLoop h t (q :: (ws ++ rest)).length (q :: (ws ++ rest)) = some (q, rest) :=
    primeLoop_of_delivered hh hq hws _ rest
  simp only [distinctPrime, hloop, if_neg hne.symm]

/-! ### The key pair of given primes -/

/-- Once its checks pass, GEN_KEYS ends as the construction does (R120). -/
theorem ending_genKeys {o : Operands} (h : o.keyChecks) (ds : List Nat) :
    ending .genKeys o ds = keyPair (o.bits / 2) o.t ds := by
  obtain ⟨hmin, hmax, heven, ht⟩ := h
  simp only [ending, show ¬ (o.bits < 6 ∨ o.w < o.bits ∨ o.bits % 2 = 1) by omega, ht, if_false]

theorem keyPairOf_of_coprime {p q e : Nat} (h : gcd e (phiOf p q) = 1) (ds : List Nat) :
    keyPairOf p q e ds = some (keyEnding p q e, ds) := by
  cases ds with
  | nil => simp [keyPairOf, chooseE, h]
  | cons raw ds => simp [keyPairOf, chooseE, h]

theorem one_lt_phiOf {p q : Nat} (hp : 5 ≤ p) (hq : 5 ≤ q) : 1 < phiOf p q := by
  have hprod : 4 * 4 ≤ (p - 1) * (q - 1) := Nat.mul_le_mul (by omega) (by omega)
  unfold phiOf
  omega

/-- An exponent coprime to `phi` has its inverse, and the construction succeeds with it (R124). -/
theorem keyEnding_of_coprime {p q e : Nat} (hphi : 1 < phiOf p q) (h : Nat.gcd e (phiOf p q) = 1) :
    ∃ d, keyEnding p q e = .success (.keyPair p q (p * q) (phiOf p q) e d) ∧ d < phiOf p q ∧
      e * d % phiOf p q = 1 := by
  obtain ⟨d, hinv, hlt, hmul⟩ := (modInv_spec (by omega)).1 h
  exact ⟨d, by rw [keyEnding, hinv], hlt, hmul.trans (Nat.mod_eq_of_lt hphi)⟩

/-- The construction on draws that deliver two distinct primes, each with its answers, and 65537 coprime to `phi`: its
first trial for `q` and its first exponent stand (R120 to R123). -/
theorem keyPair_of_delivered {h t p q : Nat} {ws ws' : List Nat} (hh : 3 ≤ h) (hp : PrimeOfLength h p)
    (hq : PrimeOfLength h q) (hne : p ≠ q) (hws : ws.length = t) (hws' : ws'.length = t)
    (hcoprime : gcd Config.e0 (phiOf p q) = 1) (rest : List Nat) :
    keyPair h t (p :: (ws ++ q :: (ws' ++ rest))) = some (keyEnding p q Config.e0, rest) := by
  simp only [keyPair, List.length_cons, primeLoop_of_delivered hh hp hws, Option.bind_some,
    distinctPrime_of_delivered hh hq hne hws', keyPairOf_of_coprime hcoprime]

/-! ### Draws that give only 5 -/

theorem candidate_three_of_mod {raw : Nat} (h : raw % 8 = 0) : candidate 3 raw = 5 := by
  simp [candidate, drawBits, h]

/-- On such draws the search of 3 bits waits or returns 5. -/
theorem primeLoop_five (t k : Nat) {ds : List Nat} (h : ∀ raw ∈ ds, raw % 8 = 0) :
    primeLoop 3 t k ds = none ∨ ∃ rest, primeLoop 3 t k ds = some (5, rest) ∧ ∀ raw ∈ rest, raw % 8 = 0 := by
  cases k with
  | zero => exact .inl rfl
  | succ k =>
    cases ds with
    | nil => exact .inl rfl
    | cons raw ds =>
      obtain ⟨hraw, hds⟩ := List.forall_mem_cons.mp h
      rw [primeLoop_of_prime_candidate (candidate_three_of_mod hraw) Nat.prime_five le_rfl]
      split_ifs
      · exact .inr ⟨_, rfl, fun raw hmem => hds raw (List.mem_of_mem_drop hmem)⟩
      · exact .inl rfl

/-- The second prime never differs from the first (R130). -/
theorem distinctPrime_five (t : Nat) : ∀ k ds, (∀ raw ∈ ds, raw % 8 = 0) → distinctPrime 3 t 5 k ds = none := by
  intro k
  induction k with
  | zero => intro ds _; rfl
  | succ k ih =>
    intro ds h
    obtain hloop | ⟨rest, hloop, hrest⟩ := primeLoop_five t ds.length h
    · simp only [distinctPrime, hloop]
    · simpa only [distinctPrime, hloop, if_true] using ih rest hrest

theorem keyPair_five (t : Nat) {ds : List Nat} (h : ∀ raw ∈ ds, raw % 8 = 0) : keyPair 3 t ds = none := by
  obtain hloop | ⟨rest, hloop, hrest⟩ := primeLoop_five t ds.length h
  · simp [keyPair, hloop]
  · simp [keyPair, hloop, distinctPrime_five t _ rest hrest]

end Sys2Proof.Machine

namespace Sys2Proof.Proofs

open Sys2Proof.Machine

/-- Settles O52: the bounds of the two primes give their bit lengths and the fit of the modulus; the rest is what the
working values meant when the pair was written. -/
theorem keyPairInvariants : Obligations.KeyPairInvariants := by
  intro s t hinv hruns hexec hidle hok
  obtain ⟨hchecks, hpair, hn, hphi, -, hcoprime, hinverse, hpos, hlt⟩ :=
    exec_genKeys_keyPairOk hinv hruns hexec hidle hok
  obtain ⟨hhalf, hbits⟩ := hchecks.half
  obtain ⟨-, hmax, -⟩ := hchecks
  obtain ⟨-, -, -, -, hmul, -⟩ := primePair_bounds hhalf hpair
  have hfits : t.big.n < 2 ^ s.params.w := hn ▸ hmul.trans_le (Nat.pow_le_pow_right two_pos (hbits.trans_le hmax))
  have hlength : s.bits.toNat / 2 ≠ 0 := (three_pos.trans_le hhalf).ne'
  obtain ⟨⟨hp, -⟩, ⟨hq, -⟩, hne⟩ := hpair
  exact ⟨hne, ⟨hp.1, hp.bitlen_eq hlength⟩, ⟨hq.1, hq.bitlen_eq hlength⟩, hn, hfits, hphi, hcoprime, hinverse, hpos,
    hlt⟩

/-- Settles O53: the modulus lies in `[2^(BITS-2), 2^BITS)`, so one of the two lengths is its own. -/
theorem modulusBitLength : Obligations.ModulusBitLength := by
  intro s t hinv hruns hexec hidle hok
  obtain ⟨hchecks, hpair, hn, -⟩ := exec_genKeys_keyPairOk hinv hruns hexec hidle hok
  obtain ⟨hhalf, hbits⟩ : 3 ≤ s.bits.toNat / 2 ∧ 2 * (s.bits.toNat / 2) = s.bits.toNat := hchecks.half
  have hlo := hpair.two_pow_le_mul
  obtain ⟨-, -, -, -, hhi, -⟩ := primePair_bounds hhalf hpair
  rw [hbits, ← hn] at hlo hhi
  obtain hshort | hlong := Nat.lt_or_ge t.big.n (2 ^ (s.bits.toNat - 1))
  · exact .inl (bitlen_eq (by omega) hlo hshort)
  · exact .inr (bitlen_eq (by omega) hlong hhi)

/-- Settles O54: the exponent is 65537 or a redrawn one, and redrawn only if the prime 65537 divides `p - 1` or
`q - 1`. -/
theorem publicExponentChoice : Obligations.PublicExponentChoice := by
  intro s t hinv hruns hexec hidle hok
  obtain ⟨-, hpair, -, hphi, htrial, -⟩ := exec_genKeys_keyPairOk hinv hruns hexec hidle hok
  refine ⟨htrial.eq_e0, fun hne => ?_⟩
  obtain ⟨hfactor, hlo, hhi⟩ := htrial.resolve_left hne
  have hdvd := e0_dvd_of_gcd_ne_one hfactor
  have hlength := hpair.eighteen_le_of_e0_dvd (hphi ▸ hdvd)
  exact ⟨hdvd, hlo, hhi, by omega⟩

/-- Settles O51: the pseudocode finds `p`, then `q`, keeps 65537, and inverts it. -/
theorem genKeysBuildsTheKeyPair : Obligations.GenKeysBuildsTheKeyPair := by
  intro s p q ws ws' rest hstart hmin hmax heven hrounds hp hplo hplt hq hqlo hqlt hne hws hws' hentropy hcoprime
  have hchecks : s.operands.keyChecks := ⟨hmin, hmax, heven, State.operands_t_ne_zero hrounds⟩
  obtain ⟨hhalf, -⟩ := hchecks.half
  have hpLength : PrimeOfLength (s.operands.bits / 2) p := ⟨hp, hplo, hplt⟩
  have hqLength : PrimeOfLength (s.operands.bits / 2) q := ⟨hq, hqlo, hqlt⟩
  obtain ⟨d, hkey, hlt, hinverse⟩ := keyEnding_of_coprime (e := Config.e0)
    (one_lt_phiOf (hpLength.five_le hhalf) (hqLength.five_le hhalf)) hcoprime
  have hdraws : s.entropy = p :: (ws ++ q :: (ws' ++ rest)) := hentropy.trans (by simp)
  have hend : ending .genKeys s.operands s.entropy =
      some (.success (.keyPair p q (p * q) (phiOf p q) Config.e0 d), rest) := by
    rw [ending_genKeys hchecks, hdraws, ← hkey]
    exact keyPair_of_delivered hhalf hpLength hqLength hne hws hws' hcoprime rest
  obtain ⟨q0, hcompletes⟩ := exec_completes hstart hend
  exact ⟨q0, d, hlt, hinverse, fun k hk => ⟨_, hcompletes k hk, rfl, rfl, rfl, rfl⟩⟩

/-- Settles O55: the candidates of 3 bits are 5 and 7, and 17 is the one inverse of 65537 below 24. -/
theorem smallestKeyIsFixed : Obligations.SmallestKeyIsFixed := by
  intro s t hinv hruns hbits hexec hidle hok
  obtain ⟨-, ⟨⟨hp, -⟩, ⟨hq, -⟩, hne⟩, hn, hphi, htrial, -, hinverse, -, hlt⟩ :=
    exec_genKeys_keyPairOk hinv hruns hexec hidle hok
  rw [hbits] at hp hq
  have hpq : (t.big.p = 5 ∧ t.big.q = 7) ∨ (t.big.p = 7 ∧ t.big.q = 5) := by
    have hp' := hp.eq_five_or_seven
    have hq' := hq.eq_five_or_seven
    omega
  obtain ⟨hn35, hphi24⟩ : t.big.n = 35 ∧ t.big.phi = 24 := by
    rw [hn, hphi]
    obtain ⟨h5, h7⟩ | ⟨h7, h5⟩ := hpq
    · rw [h5, h7]; decide
    · rw [h5, h7]; decide
  rw [hphi24] at htrial hinverse hlt
  have he : t.big.e = 65537 := htrial.eq_e0 (by decide)
  rw [he] at hinverse
  exact ⟨hpq, hn35, hphi24, he, by omega⟩

/-- Settles O56: GEN_KEYS ends with a failed check, whose code is another, or with success. -/
theorem keygenFailureIsUnreachable : Obligations.KeygenFailureIsUnreachable := by
  intro s t hinv hruns hexec hidle
  obtain ⟨e, rest, hend, rfl⟩ := exec_ends hinv hruns hexec hidle
  obtain ⟨-, rfl⟩ | ⟨-, -, -, -, rfl⟩ | ⟨-, p, q, n, phi, k, d, rfl, -⟩ := hend
  · exact (by decide : errorByte .badBits ≠ 0x06)
  · exact (by decide : errorByte .badRounds ≠ 0x06)
  · exact (by decide : (0x00 : BitVec 8) ≠ 0x06)

/-- Settles O57: both searches can return only 5, so the second prime is never distinct. -/
theorem genKeysCanHang : Obligations.GenKeysCanHang := by
  intro s hstart hbits hw hrounds hdraws q
  have hbits6 : s.operands.bits = 6 := congrArg BitVec.toNat hbits
  have hchecks : s.operands.keyChecks :=
    ⟨hbits6.ge, hbits6.trans_le hw, by rw [hbits6], State.operands_t_ne_zero hrounds⟩
  have hend : ending .genKeys s.operands s.entropy = none := by
    rw [ending_genKeys hchecks, hbits6]
    exact keyPair_five _ hdraws
  obtain ⟨work, rest, hexec⟩ := exec_of_ending_eq_none hstart hend q
  exact ⟨_, hexec, rfl⟩

end Sys2Proof.Proofs
end

section
/-! PROOFS. Modular arithmetic (42_modular_arithmetic.md R140 to R146): MODEXP, GCD and MODINV each run one machine
inside them and write its result to R; a failed check writes nothing, and a late error clears R. -/

namespace Sys2Proof.Machine

section

variable {s : State} {i : Instr}

/-! ### The endings of the commands whose destination set is R -/

/-- A success completion that writes R and used no draw. -/
theorem State.afterBurst_result (s : State) (w : Word) (v : Nat) :
    s.afterBurst w (.finished (.success (.result v)) s.entropy) =
      { s.succeeded with big := { s.big with r := v } } := by
  simp only [State.afterBurst, State.useDraws_self]
  rfl

/-- An error completion that used no draw. -/
theorem State.afterBurst_failure (s : State) (w : Word) (c : ErrorCode) :
    s.afterBurst w (.finished (.failure c) s.entropy) = s.raiseError c := by
  simp only [State.afterBurst, State.useDraws_self]

/-- A late error of a command whose destination set is R clears R, and no other register (60_exceptions.md R174). -/
theorem State.raiseError_late_of_dst_r {work : Work} {c : ErrorCode} (hbusy : s.eng = .busy (encode i) work)
    (hdst : dstOf i = [.r]) (hlate : errorIsLate c = true) :
    s.raiseError c = { s.failed (errorByte c) with big := { s.big with r := 0 } } := by
  have hprime : dstHasPrime i = false := dstHasPrime_eq_false (by rintro rfl; cases hdst) (by rintro rfl; cases hdst)
  have hregs : s.dst = [.r] := by rw [State.dst_eq hbusy, decode?_encode]; exact hdst
  have hflag : s.dstPrime = false := by rw [State.dstPrime_eq hbusy, decode?_encode]; exact hprime
  simp [State.raiseError, State.errorEffects, State.zeroBigs, State.failed, BigRegs.set, hlate, hregs, hflag]

/-- The abort ending of such a command (43_control_commands.md R162). -/
theorem exec_aborted_of_dst_r (h : s.AbortDue i) (hdst : dstOf i = [.r]) :
    exec i s = .next { s.failed 0x07 with big := { s.big with r := 0 } } := by
  obtain ⟨work, hbusy, ha⟩ := h
  rw [exec_abort hbusy ha, State.raiseError_late_of_dst_r hbusy hdst rfl]
  rfl

/-- A command whose first micro-operation finds the modulus 0 ends there and writes no register (R140, R144). -/
theorem exec_modulusZero (h : s.Started i)
    (hcheck : ∀ draw, commandMicro i s.operands draw .start = .finish (.failure .modulusZero)) :
    exec i s = .next (s.failed 0x04) := by
  obtain ⟨hbusy, ha⟩ := h
  rw [exec_of_runs hbusy ha (.refl _ _) (hcheck _) (Nat.zero_le _), State.afterBurst_failure,
    State.raiseError_check rfl]
  rfl

/-! ### The three commands and the machines inside them -/

/-- A command that begins a machine `f` in its first micro-operation ends when `f` does, in a step with room for the
run of `f`. -/
theorem exec_of_inner_runs {σ ρ : Type} {f : Option Nat → σ → Micro σ ρ} {inj : σ → Work}
    {k : ρ → Micro Work Ending} {n : Nat} {v v' : σ} {r : ρ} {e : Ending} (h : s.Started i)
    (hstart : ∀ draw, commandMicro i s.operands draw .start = .advance (inj v))
    (hlift : ∀ draw v, commandMicro i s.operands draw (inj v) = (f draw v).lift inj k)
    (hruns : Runs f n s.entropy v s.entropy v') (hend : f s.entropy.head? v' = .finish r) (hk : k r = .finish e)
    (hroom : n + 1 ≤ s.quantum) : exec i s = .next (s.afterBurst (encode i) (.finished e s.entropy)) := by
  obtain ⟨hbusy, ha⟩ := h
  have hrun : Runs (commandMicro i s.operands) (n + 1) s.entropy .start s.entropy (inj v') :=
    .advance (hstart _) (hruns.lift (k := fun _ => k) hlift)
  have hfinish : commandMicro i s.operands s.entropy.head? (inj v') = .finish e := by
    rw [hlift, hend]; exact hk
  exact exec_of_runs hbusy ha hrun hfinish hroom

/-- MODEXP with a modulus (R140, R141). -/
theorem exec_modexp (h : s.Started .modexp) (hm : s.big.m ≠ 0) (hroom : bitlen s.big.b + 1 ≤ s.quantum) :
    exec .modexp s = .next { s.succeeded with big := { s.big with r := s.big.a ^ s.big.b % s.big.m } } := by
  have hruns := pow_runs s.big.a s.big.b s.big.m s.entropy (bitlen s.big.b) (1 % s.big.m)
  rw [exec_of_inner_runs (e := .success (.result (modExp s.big.a s.big.b s.big.m))) h (fun _ => if_neg hm)
    (fun _ _ => rfl) hruns rfl rfl hroom, State.afterBurst_result, modExp_eq]

/-- GCD (R142, R143). -/
theorem exec_gcd (h : s.Started .gcd) (hroom : s.big.b + 1 ≤ s.quantum) :
    exec .gcd s = .next { s.succeeded with big := { s.big with r := Nat.gcd s.big.a s.big.b } } := by
  obtain ⟨n, hn, hruns⟩ := gcd_runs s.entropy s.big.b s.big.a s.big.b le_rfl
  rw [exec_of_inner_runs (inj := fun xy => .euclid xy.1 xy.2) h (fun _ => rfl) (fun _ _ => rfl) hruns rfl rfl
    (by omega), State.afterBurst_result]
  rfl

/-- `ModInv(a, m)` takes fewer turns than `m` (R145). -/
theorem invStart_runs (a : Nat) {m : Nat} (hm : m ≠ 0) (ds : List Nat) :
    ∃ n v, n < m ∧ Runs (fun _ => invMicro m) n ds (invStart a m) ds v ∧ invMicro m v = .finish (modInv a m) := by
  obtain ⟨n, v, hn, hruns, hend⟩ := inv_runs m ds (a % m + 1) m (a % m) 0 1 (Nat.lt_succ_self _)
  exact ⟨n, v, hn.trans_lt (Nat.mod_lt a (Nat.pos_of_ne_zero hm)), hruns, hend⟩

/-- MODINV when `ModInv` finds an inverse (R144). -/
theorem exec_modinv_of_some {d : Nat} (h : s.Started .modinv) (hm : s.big.m ≠ 0) (hroom : s.big.m + 1 ≤ s.quantum)
    (hinv : modInv s.big.a s.big.m = some d) :
    exec .modinv s = .next { s.succeeded with big := { s.big with r := d } } := by
  obtain ⟨n, v, hn, hruns, hend⟩ := invStart_runs s.big.a hm s.entropy
  rw [hinv] at hend
  rw [exec_of_inner_runs h (fun _ => if_neg hm) (fun _ _ => rfl) hruns hend rfl (by omega),
    State.afterBurst_result]

/-- MODINV when `ModInv` finds none (R144). -/
theorem exec_modinv_of_none (h : s.Started .modinv) (hm : s.big.m ≠ 0) (hroom : s.big.m + 1 ≤ s.quantum)
    (hinv : modInv s.big.a s.big.m = none) :
    exec .modinv s = .next { s.failed 0x05 with big := { s.big with r := 0 } } := by
  obtain ⟨n, v, hn, hruns, hend⟩ := invStart_runs s.big.a hm s.entropy
  rw [hinv] at hend
  rw [exec_of_inner_runs h (fun _ => if_neg hm) (fun _ _ => rfl) hruns hend rfl (by omega),
    State.afterBurst_failure, State.raiseError_late_of_dst_r (c := .noInverse) h.1 rfl rfl]
  rfl

end

/-! ### Powers modulo a product of two primes, and inverses -/

/-- Fermat's little theorem for every base: the exponents that are 1 modulo `p - 1` are those of the identity. -/
theorem pow_modEq_self_of_prime {p : Nat} (hp : Nat.Prime p) (m j : Nat) : m ^ ((p - 1) * j + 1) ≡ m [MOD p] := by
  obtain hcoprime | hdvd := Nat.coprime_or_dvd_of_prime hp m
  · have hfermat : m ^ (p - 1) ≡ 1 [MOD p] := Nat.totient_prime hp ▸ Nat.ModEq.pow_totient hcoprime.symm
    rw [pow_succ, pow_mul]
    simpa using (hfermat.pow j).mul_right m
  · have hzero : m ≡ 0 [MOD p] := Nat.modEq_zero_iff_dvd.mpr hdvd
    have hpow : m ^ ((p - 1) * j + 1) ≡ 0 [MOD p] := Nat.modEq_zero_iff_dvd.mpr (hdvd.pow (Nat.succ_ne_zero _))
    exact hpow.trans hzero.symm

/-- An exponent that is 1 modulo `(p - 1) (q - 1)` gives back every number below `p q`, those with a factor `p` or `q`
too (R146). -/
theorem pow_mod_eq_self_of_primes {p q k m : Nat} (hp : Nat.Prime p) (hq : Nat.Prime q) (hne : p ≠ q)
    (hk : k % ((p - 1) * (q - 1)) = 1) (hm : m < p * q) : m ^ k % (p * q) = m := by
  obtain ⟨j, rfl⟩ : ∃ j, k = (p - 1) * (q - 1) * j + 1 := ⟨_, hk ▸ (Nat.div_add_mod _ _).symm⟩
  have hmodp : m ^ ((p - 1) * (q - 1) * j + 1) ≡ m [MOD p] := by
    rw [Nat.mul_assoc]; exact pow_modEq_self_of_prime hp m _
  have hmodq : m ^ ((p - 1) * (q - 1) * j + 1) ≡ m [MOD q] := by
    rw [Nat.mul_comm (p - 1), Nat.mul_assoc]; exact pow_modEq_self_of_prime hq m _
  have hcoprime : Nat.Coprime p q := (Nat.coprime_primes hp hq).mpr hne
  exact Nat.mod_eq_of_modEq ((Nat.modEq_and_modEq_iff_modEq_mul hcoprime).mp ⟨hmodp, hmodq⟩) hm

theorem gcd_mod_left (a m : Nat) : Nat.gcd (a % m) m = Nat.gcd a m := by
  rw [← Nat.gcd_rec, Nat.gcd_comm]

/-- An inverse below the modulus is the only one (R145). -/
theorem modular_inverse_unique {a m u v : Nat} (hcoprime : Nat.gcd a m = 1) (hu : u < m) (hv : v < m)
    (hau : a * u % m = 1 % m) (hav : a * v % m = 1 % m) : u = v := by
  have hmul : a * u ≡ a * v [MOD m] := hau.trans hav.symm
  exact (hmul.cancel_left_of_coprime (Nat.gcd_comm a m ▸ hcoprime)).eq_of_lt_of_lt hu hv

end Sys2Proof.Machine

namespace Sys2Proof.Proofs

open Sys2Proof.Machine

/-- Settles O41: the loop of `ModExp` takes one turn for each exponent bit, after the check of M. -/
theorem modexpComputesThePower : Obligations.ModexpComputesThePower :=
  ⟨fun _ => exec_modexp, fun _ h hm => exec_modulusZero h fun _ => if_pos hm, fun _ h => exec_aborted_of_dst_r h rfl⟩

/-- Settles O42: the loop of `Gcd` takes at most B turns. -/
theorem gcdComputesTheDivisor : Obligations.GcdComputesTheDivisor :=
  ⟨fun _ => exec_gcd, fun _ h => exec_aborted_of_dst_r h rfl⟩

/-- Settles O43: `ModInv` finds an inverse exactly when the gcd is 1, and a unit can be cancelled, so there is no
other. -/
theorem modinvComputesTheInverse : Obligations.ModinvComputesTheInverse := by
  refine ⟨fun s h hm hroom hgcd => ?_, fun s h hm hroom hgcd => ?_,
    fun s h hm => exec_modulusZero h fun _ => if_pos hm, fun s h => exec_aborted_of_dst_r h rfl⟩
  · rw [gcd_mod_left] at hgcd
    obtain ⟨v, hinv, hlt, hav⟩ := (modInv_spec hm).1 hgcd
    exact ⟨v, exec_modinv_of_some h hm hroom hinv, hlt, hav,
      fun u hu hau => modular_inverse_unique hgcd hu hlt hau hav⟩
  · rw [gcd_mod_left] at hgcd
    exact exec_modinv_of_none h hm hroom ((modInv_spec hm).2 hgcd)

/-- Settles O58: the two steps raise the message to `e d`, which is 1 modulo `(p - 1) (q - 1)`. -/
theorem modexpRoundTrip : Obligations.ModexpRoundTrip := by
  intro s t p q e d m hp hq hne hed hm hs ht hsa hsb hsm hsroom hta htb htm htroom
  have hn : p * q ≠ 0 := Nat.mul_ne_zero hp.ne_zero hq.ne_zero
  have hencrypted : s.big.a ^ s.big.b % s.big.m = t.big.a := by rw [hsa, hsb, hsm, hta]
  have hdecrypted : t.big.a ^ t.big.b % t.big.m = m := by
    rw [hta, htb, htm, ← Nat.pow_mod, ← pow_mul]
    exact pow_mod_eq_self_of_primes hp hq hne hed hm
  exact ⟨_, _, exec_modexp hs (hsm ▸ hn) (hsb ▸ hsroom), hencrypted,
    exec_modexp ht (htm ▸ hn) (htb ▸ htroom), hdecrypted⟩

end Sys2Proof.Proofs
end

section
/-! PROOFS. Control commands (43_control_commands.md R160 to R162): the abort ending of every command, which comes
before all else the engine would do, and NOP and ZEROIZE, whose first micro-operation is their success completion. -/

namespace Sys2Proof.Machine

section

variable {s : State} {i : Instr} {w : Word} {work : Work}

/-! ### The abort ending -/

/-- The exact state the ABORTED error leaves: the destination set of the running word is zeroed (R162, R174). -/
theorem State.raiseError_aborted {xs : List BigReg} {b : Bool} (hdst : s.dst = xs) (hprime : s.dstPrime = b) :
    s.raiseError .aborted = { s.failed 0x07 with
      big    := (s.zeroBigs xs).big
      status := ⟨true, true, s.status.prime && !b, s.status.overrun⟩ } := by
  subst hdst hprime
  rfl

theorem exec_of_abortDue (h : s.AbortDue i) : exec i s = .next { s.failed 0x07 with
    big    := (s.zeroBigs (dstOf i)).big
    status := ⟨true, true, s.status.prime && !dstHasPrime i, s.status.overrun⟩ } := by
  obtain ⟨work, hbusy, ha⟩ := h
  have hdst : s.dst = dstOf i := by rw [State.dst_eq hbusy, decode?_encode]
  have hprime : s.dstPrime = dstHasPrime i := by rw [State.dstPrime_eq hbusy, decode?_encode]
  rw [exec_abort hbusy ha, State.raiseError_aborted hdst hprime]

/-- The destination set has PRIME for IS_PRIME and ZEROIZE alone (R36). -/
theorem and_not_dstHasPrime (i : Instr) (prime : Bool) :
    (prime && !dstHasPrime i) = if i = .isPrime ∨ i = .zeroize then false else prime := by
  split_ifs with h
  · obtain rfl | rfl := h <;> exact Bool.and_false prime
  · obtain ⟨hp, hz⟩ := not_or.mp h
    rw [dstHasPrime_eq_false hp hz]
    exact Bool.and_true prime

/-- An illegal word has an empty destination set, so its abort ending changes no register and not PRIME (R176). -/
theorem engineStep_of_illegal_abort (hbusy : s.eng = .busy w work) (ha : s.abortPending = true)
    (h : decode? w = none) : engineStep s = .next (s.failed 0x07) := by
  have hdst : s.dst = [] := by rw [State.dst_eq hbusy, h]
  have hprime : s.dstPrime = false := by rw [State.dstPrime_eq hbusy, h]
  have hending : s.raiseError .aborted = s.failed 0x07 := by
    rw [State.raiseError_aborted hdst hprime, Bool.not_false, Bool.and_true]
    rfl
  cases hd : decode w with
  | ok i => rw [decode?_of_decode hd] at h; cases h
  | error e => simp [engineStep, execIllegal, State.engineTurn, State.abortEnding, hbusy, hd, ha, hending]

/-! ### Commands that complete at once -/

/-- A command whose every micro-operation is its success completion completes in its next engine step and uses no
draw. -/
theorem exec_of_completes_at_once {e : Effect} (h : s.RunsFree i)
    (hfinish : ∀ draw work, commandMicro i s.operands draw work = .finish (.success e)) :
    exec i s = .next (s.complete e) := by
  obtain ⟨work, hbusy, ha⟩ := h
  rw [exec_of_runs hbusy ha (.refl _ work) (hfinish _ _) (Nat.zero_le _)]
  simp only [State.afterBurst, State.useDraws_self]

end

end Sys2Proof.Machine

namespace Sys2Proof.Proofs

open Sys2Proof.Machine

/-- Settles O33: the abort ending zeroes the destination set of the running word, which is that of the command, or empty
for an illegal word. -/
theorem abortEndingComesFirst : Obligations.AbortEndingComesFirst := by
  refine ⟨fun i s h => ⟨_, exec_of_abortDue h, rfl, ?_, fun x => s.zeroBigs_get _ x⟩,
    fun s w work => engineStep_of_illegal_abort⟩
  simp only [and_not_dstHasPrime]

/-- Settles O39: the one micro-operation of NOP completes with no result write, and its destination set is empty. -/
theorem nopCompletes : Obligations.NopCompletes := by
  refine ⟨⟨rfl, rfl, rfl⟩, fun s h => exec_of_completes_at_once h fun _ _ => rfl, fun s h => ?_⟩
  have hprime : (s.status.prime && !dstHasPrime .nop) = s.status.prime := Bool.and_true _
  rw [exec_of_abortDue h, hprime]
  rfl

/-- Settles O40: the destination set of ZEROIZE is all ten registers and PRIME, so both endings clear it. -/
theorem zeroizeClearsEverything : Obligations.ZeroizeClearsEverything := by
  refine ⟨rfl, fun s h => exec_of_completes_at_once h fun _ _ => rfl, fun s h => ?_⟩
  have hprime : (s.status.prime && !dstHasPrime .zeroize) = false := Bool.and_false _
  rw [exec_of_abortDue h, hprime]
  rfl

end Sys2Proof.Proofs
end

section
/-! PROOFS. Completion, errors, the interrupt line and bus errors (60_exceptions.md R171 to R183): the two ways a
command ends and what each leaves, the checks of a first step, and the steps that change nothing of the block. -/

namespace Sys2Proof.Machine

section

variable {s t : State} {i : Instr} {w : Word} {work : Work}

/-! ### Completions -/

/-- The codes up to 4 are those of the check class, the codes from 5 on those of the late class (R173, R174). -/
theorem errorIsLate_iff (c : ErrorCode) : errorIsLate c = true ↔ 5 ≤ (errorByte c).toNat := by
  cases c <;> decide

/-- An engine step that ends its command is a success completion, which no pending abort allows, or an error completion
(R171, R172, R176). -/
theorem exec_completes_or_raises (hbusy : s.eng = .busy w work) (h : exec i s = .next t) (hidle : t.eng = .idle) :
    (s.abortPending = false ∧ ∃ e rest, t = (s.useDraws rest).complete e) ∨
    (∃ c rest, t = (s.useDraws rest).raiseError c) := by
  obtain ⟨work', rest, rfl⟩ | ⟨e, rest, -, rfl⟩ | hraised := exec_cases hbusy h
  · exact absurd rfl (State.not_busy_of_idle hidle)
  · cases ha : s.abortPending with
    | false => exact .inl ⟨rfl, e, rest, rfl⟩
    | true =>
      rw [exec_abort hbusy ha, Host.Outcome.next.injEq] at h
      exact .inr ⟨.aborted, s.entropy, by rw [← h, State.useDraws_self]⟩
  · exact .inr hraised

/-- A late error zeroes the destination set of the running command and leaves the other registers; it clears PRIME
exactly for IS_PRIME and ZEROIZE (R174). -/
theorem State.raiseError_late {c : ErrorCode} (hbusy : s.eng = .busy (encode i) work) (hlate : errorIsLate c = true) :
    (∀ x, (s.raiseError c).big.get x = if x ∈ dstOf i then 0 else s.big.get x) ∧
    (s.raiseError c).status.prime = if i = .isPrime ∨ i = .zeroize then false else s.status.prime := by
  have hdst : s.dst = dstOf i := by rw [State.dst_eq hbusy, decode?_encode]
  have hprime : s.dstPrime = dstHasPrime i := by rw [State.dstPrime_eq hbusy, decode?_encode]
  refine ⟨fun x => ?_, ?_⟩
  · simp only [State.raiseError_get, hlate, hdst, true_and]
  · rw [State.raiseError_prime, if_pos hlate, hprime, and_not_dstHasPrime]

/-! ### The checks of the first step -/

/-- A command whose first micro-operation fails a check ends there with its code and writes no register (R174). -/
theorem exec_of_failed_check {c : ErrorCode} (h : s.Started i) (hcheckClass : errorIsLate c = false)
    (hfails : ∀ draw, commandMicro i s.operands draw .start = .finish (.failure c)) :
    exec i s = .next (s.failed (errorByte c)) := by
  obtain ⟨hbusy, ha⟩ := h
  rw [exec_of_runs hbusy ha (.refl _ _) (hfails _) (Nat.zero_le _), State.afterBurst_failure,
    State.raiseError_check hcheckClass]
  rfl

theorem State.operands_t_eq_zero (h : s.rounds = 0) : s.operands.t = 0 := congrArg BitVec.toNat h

/-! ### Rejected accesses -/

/-- The three ways a transaction is malformed (20_memory.md R62). -/
theorem Txn.accepted_eq_false_iff {txn : Txn} :
    txn.accepted = false ↔ txn.size ≠ 4 ∨ txn.strobes ≠ 0xF ∨ txn.off.toNat % 4 ≠ 0 := by
  simp only [Txn.accepted, Bool.and_eq_false_iff, beq_eq_false_iff_ne, or_assoc]

/-- A transaction at an unmapped offset gets ERROR, accepted or not (20_memory.md R62, R63). -/
theorem hostStep_unmapped (s : State) {txn : Txn} (h : decodeOffset txn.off.toNat = .unmapped) :
    hostStep txn s = s.busError txn.access := by
  cases hacc : txn.accepted with
  | true => rw [hostStep, if_pos hacc, h]; rfl
  | false => exact hostStep_rejected s hacc

/-! ### The interrupt line and the host's events -/

theorem State.irq_eq_true_iff : s.irq = true ↔ s.irqEn = true ∧ s.status.done = true := Bool.and_eq_true_iff

/-- Without DONE, irq is low whatever IRQ_EN is (R177). -/
theorem State.irq_eq_false_of_done (h : s.status.done = false) : s.irq = false := by
  rw [State.irq, h, Bool.and_false]

theorem step_of_host {es : List Event} {txn : Txn} (h : s.inputs = .host txn :: es) :
    step s = .next (hostStep txn { s with inputs := es }) := by
  simp only [step, State.nextEvent, State.takeEvent, runEvent, h]

end

end Sys2Proof.Machine

namespace Sys2Proof.Proofs

open Sys2Proof.Machine

/-- Settles O34: the success code is 0, and an error's class, which its code tells, decides its register effects. -/
theorem completionFlagsAndErrorEffects : Obligations.CompletionFlagsAndErrorEffects := by
  intro i s t work hbusy hexec hidle
  obtain ⟨ha, e, rest, rfl⟩ | ⟨c, rest, rfl⟩ := exec_completes_or_raises hbusy hexec hidle
  · have hcode : ((s.useDraws rest).complete e).errcode.toNat = 0 := rfl
    refine ⟨rfl, by simpa using ha, by omega, by simp, fun _ => by omega, fun _ => by omega⟩
  · refine ⟨rfl, rfl, errorByte_le c, iff_of_true rfl (errorByte_ne_zero c), fun _ hcheck => ?_, fun hlate => ?_⟩
    · have hclass : errorIsLate c = false := by
        rw [← Bool.not_eq_true, errorIsLate_iff]
        exact Nat.not_le.mpr (Nat.lt_succ_of_le hcheck)
      rw [State.raiseError_check hclass]
      exact ⟨rfl, rfl⟩
    · exact State.raiseError_late (s := s.useDraws rest) hbusy ((errorIsLate_iff c).mpr hlate)

/-- Settles O36: the first micro-operation of each command makes its checks in this order. -/
theorem checkPriority : Obligations.CheckPriority := by
  refine ⟨fun s h => ⟨fun hbits => ?_, fun hlo hhi hrounds => ?_⟩,
    fun s h => ⟨fun hbits => ?_, fun hlo hhi heven hrounds => ?_⟩, fun s h hrounds => ?_,
    fun s h hm => exec_modulusZero h fun _ => if_pos hm, fun s h hm => exec_modulusZero h fun _ => if_pos hm⟩
  · exact exec_of_failed_check (c := .badBits) h rfl fun _ => if_pos hbits
  · have hbits : ¬ (s.bits.toNat < 2 ∨ s.params.w < s.bits.toNat) := by omega
    exact exec_of_failed_check (c := .badRounds) h rfl fun _ =>
      (if_neg hbits).trans (if_pos (State.operands_t_eq_zero hrounds))
  · exact exec_of_failed_check (c := .badBits) h rfl fun _ => if_pos hbits
  · have hbits : ¬ (s.bits.toNat < 6 ∨ s.params.w < s.bits.toNat ∨ s.bits.toNat % 2 = 1) := by omega
    exact exec_of_failed_check (c := .badRounds) h rfl fun _ =>
      (if_neg hbits).trans (if_pos (State.operands_t_eq_zero hrounds))
  · exact exec_of_failed_check (c := .badRounds) h rfl fun _ => if_pos (State.operands_t_eq_zero hrounds)

/-- Settles O13: a malformed transaction is not accepted, and an offset of the two gaps is unmapped. -/
theorem rejectedAccessChangesNothing : Obligations.RejectedAccessChangesNothing := by
  intro s off size v strobes h
  have hrejected : ∀ access, hostStep ⟨off, size, strobes, access⟩ s = s.busError access := by
    intro access
    obtain hsize | hstrobes | halign | hgap := h
    · exact hostStep_rejected s (Txn.accepted_eq_false_iff.mpr (.inl hsize))
    · exact hostStep_rejected s (Txn.accepted_eq_false_iff.mpr (.inr (.inl hstrobes)))
    · exact hostStep_rejected s (Txn.accepted_eq_false_iff.mpr (.inr (.inr halign)))
    · exact hostStep_unmapped s (decodeOffset_unmapped hgap)
  exact ⟨hrejected .read, hrejected (.write v)⟩

/-- Settles O29: each of the three writes by what it does to IRQ_EN or DONE. -/
theorem interruptLine : Obligations.InterruptLine := by
  refine ⟨fun s => State.irq_eq_true_iff, fun s v hdone => ?_, fun s v hclear => ?_, fun s w hidle => ?_⟩
  · calc (hostStep (.wr 0x008 v) s).irq
        = (v.getLsbD 1 && s.status.done) := congrArg State.irq (hostStep_wr_creg s .ctrl v)
      _ = v.getLsbD 1 := by rw [hdone, Bool.and_true]
  · apply State.irq_eq_false_of_done
    calc (hostStep (.wr 0x00C v) s).status.done
        = (s.status.done && !v.getLsbD 1) := congrArg (·.status.done) (hostStep_wr_creg s .status v)
      _ = false := by rw [hclear, Bool.not_true, Bool.and_false]
  · apply State.irq_eq_false_of_done
    calc (hostStep (.wr 0x010 w) s).status.done
        = (s.writeCReg .cmd w).status.done := congrArg (·.status.done) (hostStep_wr_creg s .cmd w)
      _ = (s.accept w).status.done := by simp [State.writeCReg, State.busy_eq_false.mpr hidle]
      _ = false := rfl

/-- Settles O6: the step takes the event, and the engine while IDLE leaves the state as it took it. -/
theorem stepWhenIdleAndOnHostEvents : Obligations.StepWhenIdleAndOnHostEvents := by
  refine ⟨fun s es ds q hinputs hidle => ?_, fun s es txn => step_of_host⟩
  rw [step_of_engine hinputs]
  exact engineStep_of_idle hidle

end Sys2Proof.Proofs
end

section
/-! PROOFS. Reset and the host's writes while BUSY (10_state.md R39, 70_reset_and_hazards.md R200, R201, R205): which
writes are dropped with OVERRUN, and what PARAM reads. -/

namespace Sys2Proof.Machine

variable {s : State}

/-- An aligned offset of the big-number windows decodes to a word (20_memory.md R63). -/
theorem exists_decodeOffset_eq_word_of_window {off : Nat} (hlo : 0x1000 ≤ off) (hhi : off ≤ 0x23FC)
    (halign : off % 4 = 0) : ∃ x j, decodeOffset off = .word x j := by
  obtain ⟨i, j, hi, hj, rfl⟩ : ∃ i j, i < 10 ∧ j < 128 ∧ off = 0x1000 + 0x200 * i + 4 * j :=
    ⟨(off - 0x1000) / 0x200, (off - 0x1000) % 0x200 / 4, by omega, by omega, by omega⟩
  obtain ⟨x, -, hx⟩ := exists_decodeOffset_eq_word hi hj
  exact ⟨x, j, hx⟩

/-- The three control registers whose writes are dropped while BUSY (R205). -/
theorem writeCReg_of_busy (hbusy : s.busy = true) {c : CReg} (hc : c = .cmd ∨ c = .bits ∨ c = .rounds) (v : Word) :
    s.writeCReg c v = s.drop := by
  obtain rfl | rfl | rfl := hc <;> exact if_pos hbusy

/-- Every write to a big-number window is dropped while BUSY, to a reserved word as well (R205). -/
theorem writeWord_of_busy (hbusy : s.busy = true) (x : BigReg) (j : Nat) (v : Word) : s.writeWord x j v = s.drop :=
  if_pos hbusy

theorem hostStep_wr_creg_of_busy (hbusy : s.busy = true) {c : CReg} (hc : c = .cmd ∨ c = .bits ∨ c = .rounds)
    (v : Word) : hostStep (.wr (BitVec.ofNat 16 (cregOffset c)) v) s = s.drop.respond .writeOkay := by
  rw [hostStep_wr_creg, writeCReg_of_busy hbusy hc]

theorem hostStep_wr_window_of_busy (hbusy : s.busy = true) {off : BitVec 16} (hlo : 0x1000 ≤ off.toNat)
    (hhi : off.toNat ≤ 0x23FC) (halign : off.toNat % 4 = 0) (v : Word) :
    hostStep (.wr off v) s = s.drop.respond .writeOkay := by
  obtain ⟨x, j, hoff⟩ := exists_decodeOffset_eq_word_of_window hlo hhi halign
  calc hostStep (.wr off v) s = (s.writeWord x j v).respond .writeOkay := by rw [hostStep_wr s v halign, hoff]; rfl
    _ = s.drop.respond .writeOkay := by rw [writeWord_of_busy hbusy]

/-- PARAM reads the low 16 bits of W, whatever W is (10_state.md R23). -/
theorem paramWord_eq_ofNat (p : Params) : paramWord p = BitVec.ofNat 32 (p.w % 65536) := by
  have hfits : p.w % 65536 < 2 ^ 32 := by omega
  apply BitVec.eq_of_toNat_eq
  calc (paramWord p).toNat = p.w % 65536 := BitVec.toNat_setWidth_of_le (by decide)
    _ = (BitVec.ofNat 32 (p.w % 65536)).toNat := by rw [BitVec.toNat_ofNat, Nat.mod_eq_of_lt hfits]

end Sys2Proof.Machine

namespace Sys2Proof.Proofs

open Sys2Proof.Machine

/-- Settles O14: the dropped writes by their offset; what CTRL and STATUS do is O18 and O17. -/
theorem writesWhileBusy : Obligations.WritesWhileBusy := by
  obtain ⟨-, -, hctrl⟩ := ctrlReadsAndWrites
  obtain ⟨-, hstatus⟩ := statusReadsAndClears
  refine ⟨fun s w work v heng => ⟨fun off hoff => ?_, hctrl s v w work heng, hstatus s v⟩, fun s v off hoff => ?_⟩
  · have hbusy : s.busy = true := State.busy_eq_true.mpr ⟨w, work, heng⟩
    obtain rfl | rfl | rfl | ⟨hlo, hhi, halign⟩ := hoff
    · exact hostStep_wr_creg_of_busy hbusy (c := .cmd) (.inl rfl) v
    · exact hostStep_wr_creg_of_busy hbusy (c := .bits) (.inr (.inl rfl)) v
    · exact hostStep_wr_creg_of_busy hbusy (c := .rounds) (.inr (.inr rfl)) v
    · exact hostStep_wr_window_of_busy hbusy hlo hhi halign v
  · obtain rfl | rfl | rfl := hoff
    · exact hostStep_wr_creg s .id v
    · exact hostStep_wr_creg s .param v
    · exact hostStep_wr_creg s .errcode v

/-- Settles O7: the state after reset is `State.doReset`, of which each row is a field of `State.reset`. -/
theorem resetLeavesItsValues : Obligations.ResetLeavesItsValues := fun s =>
  ⟨s.doReset, rfl, rfl, rfl, rfl, rfl, rfl, rfl, rfl, BigRegs.get_zero, rfl, rfl, s.doReset_params, rfl,
    paramWord_eq_ofNat s.params⟩

end Sys2Proof.Proofs
end
